-- ==== Sys2Proof/Word.lean ====
section
/-! DEFINITION. The widths of the block's data (00_scope.md R8, R12; 10_state.md R31, R36; 20_memory.md R61). -/

namespace Sys2Proof

/-- One word of the host bus port: 32 bits (R61). -/
abbrev Word := BitVec 32

/-- The content of one field register: 240 stored bits, bit `i` the coefficient of `x^i` (R8, R16). -/
abbrev FieldElem := BitVec 240

/-- The scalar register's content: 240 bits, read as an unsigned number (R36). -/
abbrev Scalar := BitVec 240

/-- A field-register index: all 16 values name a register (R12, R93). -/
abbrev FReg := Fin 16

/-- A point-register index: the 3-bit point index of R94 (NP = 8 point registers, R12). -/
abbrev PReg := Fin 8

/-- A pair of field elements: a point of the curve or any other content of a point register (R19, R34). -/
abbrev Point := FieldElem × FieldElem

end Sys2Proof
end

