-- ==== Sys2Proof/Syntax.lean ====
section
/-! DEFINITION. The 13 commands of the block, one constructor per row of spec/opcode_table.json (30_encoding.md R98).
Operands stand in the order of the source's signatures: destination, then sources (R102). -/

namespace Sys2Proof

/-- A decoded command. The operand types admit exactly the values that an encoding admits: a field-register index is
any 4-bit number (R93), a point-register index a 3-bit one (R94), the immediate of ITPOW any 8-bit one (R95). A field
that a command does not use has no operand, because it must be 0 (R97). -/
inductive Instr where
  | zero   (d : FReg)                  -- ZERO   Fd
  | copy   (d a : FReg)                -- COPY   Fd, Fa
  | isZero (a : FReg)                  -- ISZERO Fa
  | add    (d a b : FReg)              -- ADD    Fd, Fa, Fb
  | mulx   (d a : FReg)                -- MULX   Fd, Fa
  | mul    (d a b : FReg)              -- MUL    Fd, Fa, Fb
  | sqr    (d a : FReg)                -- SQR    Fd, Fa
  | itpow  (d a : FReg) (j : BitVec 8) -- ITPOW  Fd, Fa, #j
  | inv    (d a : FReg)                -- INV    Fd, Fa
  | pisinf (a : PReg)                  -- PISINF Pa
  | pdbl   (d a : PReg)                -- PDBL   Pd, Pa
  | padd   (d a b : PReg)              -- PADD   Pd, Pa, Pb
  | smul   (d a : PReg)                -- SMUL   Pd, Pa   (the scalar is always K)
deriving DecidableEq, Repr

/-- The OP column of R98. -/
def Instr.opcode : Instr → Nat
  | .zero _ => 0x01
  | .copy _ _ => 0x02
  | .isZero _ => 0x03
  | .add _ _ _ => 0x04
  | .mulx _ _ => 0x05
  | .mul _ _ _ => 0x06
  | .sqr _ _ => 0x07
  | .itpow _ _ _ => 0x08
  | .inv _ _ => 0x09
  | .pisinf _ => 0x10
  | .pdbl _ _ => 0x11
  | .padd _ _ _ => 0x12
  | .smul _ _ => 0x13

end Sys2Proof
end

