-- ==== Sys2Proof/Config.lean ====
section
/-! DEFINITION. What the build of the block fixes (00_scope.md R9 to R11, R13) and the one value the spec leaves to a
free draw (20_memory.md R70). The parameter VALUES of the default instance stand in Sys2Proof/Machine/Instance.lean. -/

namespace Sys2Proof

/-- The domain parameters: "fixed at build time per target platform and not configurable at runtime" (R9 to R11).
`rpolyLow` is the low part `r` of `f(x) = x^M + r(x)`. The constraints R9 to R11 put on them are `Params.WellFormed`. -/
structure Params where
  M        : Nat
  rpolyLow : FieldElem
  curveA   : FieldElem
  curveB   : FieldElem
deriving DecidableEq, Repr

/-- The free draw of R70: the word that the `n`-th read of F or K made while STATUS.BUSY = 1 returns.
It has no body, so nothing can be proved of its value. Log entry 6. -/
opaque Config.busyRead : Nat → Word

/-- The open part of the latency parameter of R13, one value per opcode and immediate. Log entry 16. -/
opaque Config.latencyOpen : Nat → Nat → Nat

/-- The immediate LAT depends on: that of ITPOW, and none for any other command (R13, R256). -/
def Instr.latencyImm : Instr → Nat
  | .itpow _ _ j => j.toNat
  | .zero _ | .copy _ _ | .isZero _ | .add _ _ _ | .mulx _ _ | .mul _ _ _ | .sqr _ _ | .inv _ _ => 0
  | .pisinf _ | .pdbl _ _ | .padd _ _ _ | .smul _ _ => 0

/-- `LAT(cmd)` of R13: a positive number of cycles that depends on the opcode and, for ITPOW, on the immediate alone
(R256). The model keeps no time and no step reads it (R255, R257). -/
def Config.latency (c : Instr) : Nat := Config.latencyOpen c.opcode c.latencyImm + 1

end Sys2Proof
end

