-- ==== Sys2Proof/Machine/Event.lean ====
section
/-! DEFINITION. What the outside world does to the block: the host's bus accesses, the points at which the schedule
gives the engine its step, and the level of the reset input (20_memory.md R76; 70_reset_and_hazards.md R240). -/

namespace Sys2Proof.Machine

/-- The size of a host access. The port carries whole words only (R61); the other sizes exist so that they can be
refused (R62). -/
inductive AccessSize where
  | byte
  | half
  | word
deriving DecidableEq, Repr

/-- One entry of the schedule. The total order of the steps of R76 is the order of the entries. -/
inductive Event where
  /-- the host reads at byte offset `off` of the window: `MemRead(off, 4)` (R67) -/
  | read (size : AccessSize) (off : Nat)
  /-- the host writes `v` at byte offset `off` of the window: `MemWrite(off, 4, v)` (R68) -/
  | write (size : AccessSize) (off : Nat) (v : Word)
  /-- the engine takes its step: the completion of the command in flight, where there is one (R121) -/
  | engine
  /-- the platform drives the reset input: `true` asserts it, which is the reset step; `false` releases it (R240) -/
  | rst (level : Bool)
deriving DecidableEq, Repr

/-- One word that the block drove on the port: the answer to a host read at `off`. -/
structure Reply where
  off  : Nat
  word : Word
deriving DecidableEq, Repr

end Sys2Proof.Machine
end

