-- ==== Sys2Proof/Machine/Poly.lean ====
section
/-! DEFINITION. The polynomial primitives of 00_scope.md R18, on bit vectors of any width. A polynomial over GF(2) is
coded by the natural number whose bit `i` is the coefficient of `x^i` (R16), so no width has to be carried. -/

namespace Sys2Proof.Machine

/-- The carry-less product of `a` and the low `n` bits of `b`. -/
def clmulBits (a b : Nat) : Nat → Nat
  | 0 => 0
  | n + 1 => clmulBits a b n ^^^ (if b.testBit n then a <<< n else 0)

/-- `clmul` of R18: bit `k` is the XOR over all `i + j = k` of `a[i] AND b[j]`. -/
def clmul (a b : Nat) : Nat := clmulBits a b (b.log2 + 1)

/-- XOR elimination of the bits at `deg f + n - 1` down to `deg f`, highest first. -/
def eliminate (f : Nat) : Nat → Nat → Nat
  | 0, v => v
  | n + 1, v => eliminate f n (if v.testBit (f.log2 + n) then v ^^^ (f <<< n) else v)

/-- `polymod` of R18: the remainder of `v` on division by `f`, "computed by XOR elimination of the bits at or above M"
(`M` is the degree of `f`, the place of its highest bit). -/
def polymod (v f : Nat) : Nat := eliminate f (v.log2 + 1 - f.log2) v

/-- The low `n` bits of `a`, each followed by a zero bit. -/
def spreadBits (a : Nat) : Nat → Nat
  | 0 => 0
  | n + 1 => spreadBits a n ^^^ (if a.testBit n then 1 <<< (2 * n) else 0)

/-- `spread` of R18: `spread(a)[2i] = a[i]` and `spread(a)[2i+1] = 0`. -/
def spread (a : Nat) : Nat := spreadBits a (a.log2 + 1)

end Sys2Proof.Machine
end

