-- ==== Sys2Proof/Machine/Gf.lean ====
section
/-! DEFINITION. Arithmetic in GF(2^M) on the 240-bit contents of field registers (00_scope.md R18; 40_field.md R128 to
R133), for any parameters. Only the values are architectural, not the way they are computed (R139). -/

namespace Sys2Proof

/-- The reduction polynomial `f(x) = x^M + r(x)` of R10. -/
def Params.rpoly (p : Params) : Nat := 2 ^ p.M ^^^ p.rpolyLow.toNat

/-- `a[M-1:0]`. -/
def Params.low (p : Params) (a : FieldElem) : Nat := a.toNat % 2 ^ p.M

/-- A field element is canonical when its bits `239:M` are all zero (R16). -/
abbrev Params.Canonical (p : Params) (a : FieldElem) : Prop := a.toNat < 2 ^ p.M

namespace Machine

/-- `zext_240` of a polynomial of degree below 240. -/
def toElem (u : Nat) : FieldElem := BitVec.ofNat 240 u

/-- `fadd` of R18: "bitwise XOR" (R128). -/
def fadd (a b : FieldElem) : FieldElem := a ^^^ b

/-- `fmul` of R18 in the form R130 gives it: `polymod(clmul(a[M-1:0], b[M-1:0]), f)`. Log entry 12. -/
def fmul (p : Params) (a b : FieldElem) : FieldElem := toElem (polymod (clmul (p.low a) (p.low b)) p.rpoly)

/-- `fsqr` of R18 in the form R131 gives it: `polymod(spread(a[M-1:0]), f)`. -/
def fsqr (p : Params) (a : FieldElem) : FieldElem := toElem (polymod (spread (p.low a)) p.rpoly)

/-- `fpow2` of R18: `fsqr` applied `j` times (R132). -/
def fpow2 (p : Params) (a : FieldElem) : Nat → FieldElem
  | 0 => a
  | j + 1 => fsqr p (fpow2 p a j)

/-- `a` raised to the number made of the low `n` bits of `e`, by `a^e = (a^(e/2))^2 · a^(e mod 2)`. -/
def fexpBits (p : Params) (a : FieldElem) : Nat → Nat → FieldElem
  | 0, _ => 1
  | n + 1, e =>
    if e.testBit 0 then fmul p (fsqr p (fexpBits p a n (e / 2))) a else fsqr p (fexpBits p a n (e / 2))

/-- `fexp` of R18: `a` raised to the natural number `e`, with `fexp(a, 0) = 1`. The spec says "by repeated fmul"; this
takes squarings too, so that an exponent near `2^M` can be evaluated. Log entry 13. -/
def fexp (p : Params) (a : FieldElem) (e : Nat) : FieldElem := fexpBits p a (e.log2 + 1) e

/-- `finv(a) = fexp(a, 2^M - 2)` of R18. It is defined for every `a`; INV itself rejects zero (R133). -/
def finv (p : Params) (a : FieldElem) : FieldElem := fexp p a (2 ^ p.M - 2)

/-- MULX's value (R129): `s = (v << 1)[M-1:0]`, and one reduction step when the shift overflows degree `M - 1`. -/
def fmulx (p : Params) (v : FieldElem) : FieldElem :=
  if v.toNat.testBit (p.M - 1) then toElem ((v.toNat <<< 1) % 2 ^ p.M ^^^ p.rpolyLow.toNat)
  else toElem ((v.toNat <<< 1) % 2 ^ p.M)

end Machine

end Sys2Proof
end

