-- ==== Sys2Proof/Machine/Pseudo.lean ====
section
/-! DEFINITION. The assembler's pseudo-commands (30_encoding.md R103). They are not commands of the block. -/

namespace Sys2Proof

/-- The x coordinate's register `F[2i]` of `P[i]` (R34, R35). -/
def PReg.xReg (i : PReg) : FReg := ⟨2 * i.val, by omega⟩

/-- The y coordinate's register `F[2i+1]` of `P[i]` (R34, R35). -/
def PReg.yReg (i : PReg) : FReg := ⟨2 * i.val + 1, by omega⟩

namespace Machine

/-- The five pseudo-commands of R103. -/
inductive Pseudo where
  | setinf (d : PReg)           -- SETINF Pd
  | pcopy  (d a : PReg)         -- PCOPY  Pd, Pa
  | pneg   (d a : PReg)         -- PNEG   Pd, Pa
  | fdiv   (d a b t : FReg)     -- FDIV   Fd, Fa, Fb, Ft
  | sqrn   (d a : FReg) (j : BitVec 8) -- SQRN Fd, Fa, #j
deriving DecidableEq, Repr

/-- The commands a pseudo-command stands for, each issued after the previous one completes (R103). -/
def expandPseudo : Pseudo → List Instr
  | .setinf d => [.zero d.xReg, .zero d.yReg]
  | .pcopy d a => [.copy d.xReg a.xReg, .copy d.yReg a.yReg]
  | .pneg d a => [.add d.yReg a.xReg a.yReg, .copy d.xReg a.xReg]
  | .fdiv d a b t => [.inv t b, .mul d a t]
  | .sqrn d a j => [.itpow d a j]

end Machine

end Sys2Proof
end

