-- ==== Sys2Proof/WellFormed.lean ====
section
/-! DEFINITION. The checks on what the types of the model admit but the spec does not: the constraints on the domain
parameters (00_scope.md R9 to R11), what the host port can carry (20_memory.md R61, R62) and the scratch register of
FDIV (30_encoding.md R103). A term of `Instr` needs no check: its operand types admit exactly the encodable values. -/

namespace Sys2Proof

/-- "a natural number with `2 <= M <= 240`" (R9). -/
abbrev Params.DegreeInRange (p : Params) : Prop := 2 ≤ p.M ∧ p.M ≤ 240

/-- "the low part `r` as an M-bit value, `RPOLY_LOW`, with `deg r < M`" (R10). -/
abbrev Params.LowPartFits (p : Params) : Prop := p.Canonical p.rpolyLow

/-- "Each is a canonical field element" (R11). -/
abbrev Params.CurveCanonical (p : Params) : Prop := p.Canonical p.curveA ∧ p.Canonical p.curveB

/-- "The model requires `CURVE_B != 0`" (R11). -/
abbrev Params.CurveNonsingular (p : Params) : Prop := p.curveB ≠ 0

/-- "The model requires `f` to be irreducible over GF(2)" (R10): no polynomial of degree 1 to M - 1 divides it. -/
abbrev Params.Irreducible (p : Params) : Prop := ∀ g < 2 ^ p.M, 2 ≤ g → Machine.polymod p.rpoly g ≠ 0

/-- The constraints of R9 to R11 that do not speak of irreducibility. No step depends on irreducibility (R176), and
I17 says what INV does without it. -/
structure Params.Sized (p : Params) : Prop where
  degree : p.DegreeInRange
  low    : p.LowPartFits
  curve  : p.CurveCanonical
  b      : p.CurveNonsingular

/-- All constraints of R9 to R11. -/
structure Params.WellFormed (p : Params) : Prop extends p.Sized where
  irreducible : p.Irreducible

namespace Machine

/-- "Every access moves exactly one 32-bit word" (R61). -/
abbrev AccessSize.Whole (z : AccessSize) : Prop := z = .word

/-- An access names a word by its byte offset, "a multiple of 4 in 0x000..0xFFC" (R61). -/
abbrev OffsetOnPort (off : Nat) : Prop := off % 4 = 0 ∧ off < 0x1000

/-- What the port of R61 can carry; anything else must be refused (R62). The engine's step and the reset input do not
use the port. -/
abbrev Event.OnPort : Event → Prop
  | .read z off => z.Whole ∧ OffsetOnPort off
  | .write z off _ => z.Whole ∧ OffsetOnPort off
  | .engine => True
  | .rst _ => True

/-- "Ft is a scratch register, Ft distinct from Fa" (R103). -/
abbrev Pseudo.WellFormed : Pseudo → Prop
  | .fdiv _ a _ t => t ≠ a
  | .setinf _ => True
  | .pcopy _ _ => True
  | .pneg _ _ => True
  | .sqrn _ _ _ => True

end Machine

end Sys2Proof
end

