-- ==== Sys2Proof/Decode.lean ====
section
/-! DEFINITION. The decoder and the encoder of command words (30_encoding.md R90 to R101). -/

namespace Sys2Proof

/-- Why a word is illegal (R96, R97, R99, R100). The block records the one code ILLEGAL_CMD for all of them
(60_exceptions.md R210); the reasons are names for the reader. Log entry 18. -/
inductive Illegal where
  /-- the opcode is reserved (R100) -/
  | reservedOpcode
  /-- RES0 or RES1 is not 0 (R96) -/
  | reservedBits
  /-- bit 3 of a used point-register field is set (R94) -/
  | pointIndex
  /-- a field that the command does not use is not 0 (R97) -/
  | unusedField
deriving DecidableEq, Repr

/-- OP, bits 5:0 (R91, R92). -/
def fieldOp (w : Word) : BitVec 6 := w.extractLsb' 0 6
/-- D, bits 11:8 (R91). -/
def fieldD (w : Word) : BitVec 4 := w.extractLsb' 8 4
/-- A, bits 15:12 (R91). -/
def fieldA (w : Word) : BitVec 4 := w.extractLsb' 12 4
/-- B, bits 19:16 (R91). -/
def fieldB (w : Word) : BitVec 4 := w.extractLsb' 16 4
/-- IMM, bits 31:24 (R91, R95). -/
def fieldImm (w : Word) : BitVec 8 := w.extractLsb' 24 8

/-- A field of a field command names the field register of that number (R93). -/
def fregOf (v : BitVec 4) : FReg := v.toFin

/-- A field of a point command: bits 2:0 are the point index (R94). -/
def pregOf (v : BitVec 4) : PReg := (v.extractLsb' 0 3).toFin

/-- One row of the opcode table of R98: a word encodes the row's command exactly when `w AND mask = mtch`. -/
structure Row where
  mask : Word
  mtch : Word
  read : Word → Instr

/-- The opcode table (R98), in the table's order. -/
def opcodeTable : List Row :=
  [ ⟨0xFFFFF0FF, 0x00000001, fun w => .zero (fregOf (fieldD w))⟩,
    ⟨0xFFFF00FF, 0x00000002, fun w => .copy (fregOf (fieldD w)) (fregOf (fieldA w))⟩,
    ⟨0xFFFF0FFF, 0x00000003, fun w => .isZero (fregOf (fieldA w))⟩,
    ⟨0xFFF000FF, 0x00000004, fun w => .add (fregOf (fieldD w)) (fregOf (fieldA w)) (fregOf (fieldB w))⟩,
    ⟨0xFFFF00FF, 0x00000005, fun w => .mulx (fregOf (fieldD w)) (fregOf (fieldA w))⟩,
    ⟨0xFFF000FF, 0x00000006, fun w => .mul (fregOf (fieldD w)) (fregOf (fieldA w)) (fregOf (fieldB w))⟩,
    ⟨0xFFFF00FF, 0x00000007, fun w => .sqr (fregOf (fieldD w)) (fregOf (fieldA w))⟩,
    ⟨0x00FF00FF, 0x00000008, fun w => .itpow (fregOf (fieldD w)) (fregOf (fieldA w)) (fieldImm w)⟩,
    ⟨0xFFFF00FF, 0x00000009, fun w => .inv (fregOf (fieldD w)) (fregOf (fieldA w))⟩,
    ⟨0xFFFF8FFF, 0x00000010, fun w => .pisinf (pregOf (fieldA w))⟩,
    ⟨0xFFFF88FF, 0x00000011, fun w => .pdbl (pregOf (fieldD w)) (pregOf (fieldA w))⟩,
    ⟨0xFFF888FF, 0x00000012, fun w => .padd (pregOf (fieldD w)) (pregOf (fieldA w)) (pregOf (fieldB w))⟩,
    ⟨0xFFFF88FF, 0x00000013, fun w => .smul (pregOf (fieldD w)) (pregOf (fieldA w))⟩ ]

/-- The words a row matches (R99). -/
def Row.matches (r : Row) (w : Word) : Bool := w &&& r.mask == r.mtch

/-- Bit 3 of each field among D, A and B that a row masks in bit 3 but not below it: the reserved bits of the point
fields that the row's command uses (R94). -/
def Row.pointBits (r : Row) : Word := 0x00088800 &&& ~~~((r.mask &&& 0x00044400) <<< 1)

/-- The name of the reason for which a word that no row matches is illegal. -/
def illegalReason (w : Word) : Illegal :=
  match opcodeTable.find? (fun r => w &&& 0x3F == r.mtch) with
  | none => .reservedOpcode
  | some r =>
    if w &&& 0x00F000C0 ≠ 0 then .reservedBits
    else if w &&& r.mask &&& r.pointBits ≠ 0 then .pointIndex
    else .unusedField

/-- `Decode` of R99, total on 32-bit words: the first row that matches reads the command. Decoding depends on the word
alone (R101). -/
def decode (w : Word) : Except Illegal Instr :=
  match opcodeTable.find? (fun r => r.matches w) with
  | some r => .ok (r.read w)
  | none => .error (illegalReason w)

/-- The command word from its fields, RES0 and RES1 being 0 (R91, R96). -/
def packWord (op : BitVec 6) (d a b : BitVec 4) (imm : BitVec 8) : Word :=
  imm ++ (0#4 ++ (b ++ (a ++ (d ++ (0#2 ++ op)))))

/-- The 4-bit field that names a field register (R93). -/
def fregField (i : FReg) : BitVec 4 := BitVec.ofFin i

/-- The 4-bit field that names a point register: bit 3 is 0 (R94). -/
def pregField (i : PReg) : BitVec 4 := (BitVec.ofFin (w := 3) i).setWidth 4

/-- The command word of a command (R91, R98): every field the command does not use is 0 (R97). -/
def encode : Instr → Word
  | .zero d => packWord 0x01 (fregField d) 0 0 0
  | .copy d a => packWord 0x02 (fregField d) (fregField a) 0 0
  | .isZero a => packWord 0x03 0 (fregField a) 0 0
  | .add d a b => packWord 0x04 (fregField d) (fregField a) (fregField b) 0
  | .mulx d a => packWord 0x05 (fregField d) (fregField a) 0 0
  | .mul d a b => packWord 0x06 (fregField d) (fregField a) (fregField b) 0
  | .sqr d a => packWord 0x07 (fregField d) (fregField a) 0 0
  | .itpow d a j => packWord 0x08 (fregField d) (fregField a) 0 j
  | .inv d a => packWord 0x09 (fregField d) (fregField a) 0 0
  | .pisinf a => packWord 0x10 0 (pregField a) 0 0
  | .pdbl d a => packWord 0x11 (pregField d) (pregField a) 0 0
  | .padd d a b => packWord 0x12 (pregField d) (pregField a) (pregField b) 0
  | .smul d a => packWord 0x13 (pregField d) (pregField a) 0 0

/-- The word of a command whose bits are `w`, numbered as spec/opcode_table.json numbers them: every command is one
32-bit word (R90), and bits at or above `nbits` are 0. -/
def tableWord (nbits w : Nat) : Word := BitVec.ofNat 32 (w % 2 ^ nbits)

/-- The command the decoder reads from the word whose bits are `w`, or none where it is illegal. -/
def decodeTableWord (nbits w : Nat) : Option Instr := (decode (tableWord nbits w)).toOption

end Sys2Proof
end

