-- ==== Sys2Proof/Machine/Instance.lean ====
section
/-! DEFINITION. The default instance of the parameters, the curve sect233r1 (00_scope.md R15). -/

namespace Sys2Proof.Machine

/-- `M = 233`, `f(x) = x^233 + x^74 + 1`, `CURVE_A = 1` and the `CURVE_B` of R15. R15 marks these values "from general
knowledge, not in source" and calls the instance not normative. PRESUMED; log entry 2. -/
def sect233r1 : Params where
  M := 233
  rpolyLow := 0x4000000000000000001
  curveA := 1
  curveB := 0x0066647EDE6C332C7F8C0923BB58213B333B20E9CE4281FE115F7D8F90AD

end Sys2Proof.Machine
end

