-- ==== Sys2Proof/Machine/State.lean ====
section
/-! DEFINITION. The state of the block (10_state.md R30), the reasons a step can stop, and reset (R52). The block has no
memory of its own (20_memory.md R60): its 4 KiB window is a view of these registers. -/

namespace Sys2Proof.Machine

/-- The error codes a step can record in STATUS.ERRCODE (60_exceptions.md R210). Codes 6 to 15 are never produced. -/
inductive ErrorCode where
  | illegalCmd
  | cmdBusy
  | invZero
  | writeBusy
  | range
deriving DecidableEq, Repr

/-- What a command does at its completion (40_field.md R121, R122): its register writes, its answer for STATUS.Z, or
its error. -/
inductive Result where
  | write (ws : List (FReg × FieldElem))
  | setZ (z : Bool)
  | fail (code : ErrorCode)
deriving DecidableEq, Repr

/-- The command in flight and the result its rule computed when it was accepted (R49). -/
structure PendingCommand where
  cmd    : Instr
  result : Result
deriving DecidableEq, Repr

/-- The machine. The fields from `F` to `pend` are the architectural state of R30, no more and no less. `params` is
the build's constants (R9 to R11). The fields after `pend` belong to the model, not to the block: the level of the reset
input, the schedule still to come, the words read so far and the number of free draws made. -/
structure State where
  /-- the domain parameters of the build; no step changes them (log entry 1) -/
  params : Params
  /-- the field registers F[0] to F[15] (R31) -/
  F : Vector FieldElem 16
  /-- the scalar register (R36) -/
  K : Scalar
  /-- CTRL.IE (R46) -/
  ie : Bool
  /-- STATUS.BUSY (R41) -/
  busy : Bool
  /-- STATUS.DONE (R42) -/
  done : Bool
  /-- STATUS.ERR (R43) -/
  err : Bool
  /-- STATUS.Z (R44) -/
  z : Bool
  /-- STATUS.ERRCODE (R45) -/
  errcode : BitVec 4
  /-- PEND, the in-flight command (R49) -/
  pend : Option PendingCommand
  /-- the level of the reset input `rst` (70_reset_and_hazards.md R240; log entry 8) -/
  rst : Bool
  /-- the schedule: what happens next, first entry first (log entry 3) -/
  inputs : List Event
  /-- the words that host reads returned, newest first (log entry 7) -/
  replies : List Reply
  /-- how many free draws of R70 were made (log entry 6) -/
  draws : Nat
deriving DecidableEq, Repr

/-- Why the machine stops with a fault. -/
inductive Fault where
  /-- The engine's step is taken with STATUS.BUSY = 1 and no command in PEND. R30 excludes such a state ("PEND = none
  iff BUSY = 0") and no step leads to one; the spec gives the engine nothing to do there. Raised by `complete`. Safe:
  the model stops where the spec says nothing. Log entry 11. -/
  | noPending
deriving DecidableEq, Repr

/-- Why the model refuses a step. -/
inductive Refusal where
  /-- An instruction that has no meaning yet. Raised by no arm of `exec`. Safe. -/
  | notModelled (mnemonic : String)
  /-- A byte or halfword host access, which the port cannot express: "Such a model must refuse them" (R62). Raised by
  `portRefusal`. Safe. -/
  | subWord
  /-- A host access at an offset that is no multiple of 4 (R62). Raised by `portRefusal`. Safe. -/
  | misaligned
  /-- A host access at an offset outside the 4096-byte window (R60, R61). Raised by `portRefusal`. Safe. -/
  | outsideWindow
  /-- A host access while the reset input is asserted: "the block takes no bus access" (R240, I15). Raised by
  `portRefusal`. Safe. -/
  | accessDuringReset
deriving DecidableEq, Repr

/-- A block of the build `p` right after reset, every architectural field at the value R52 states. The fields of the
model's own start empty (log entry 20). -/
def State.resetOf (p : Params) : State where
  params := p
  F := Vector.replicate 16 0
  K := 0
  ie := false
  busy := false
  done := false
  err := false
  z := false
  errcode := 0
  pend := none
  rst := false
  inputs := []
  replies := []
  draws := 0

/-- The machine right after reset, for the default instance of the parameters (R15, R52; log entry 1). -/
def State.reset : State := State.resetOf sect233r1

end Sys2Proof.Machine
end

