-- ==== Sys2Proof/Machine/Ops.lean ====
section
/-! DEFINITION. The named operations every step is made of: the field registers, raising an error and acknowledging it,
accepting a command and completing it, and reset. -/

namespace Sys2Proof.Machine

/-- What a step answers. -/
abbrev Answer := Host.Outcome State Fault Refusal

/-- `F[i]` (R20, R31). -/
def State.freg (s : State) (i : FReg) : FieldElem := s.F[i]

/-- `F[i] <- v` (R20). -/
def State.setFreg (s : State) (i : FReg) (v : FieldElem) : State := { s with F := s.F.set i v }

/-- The code that STATUS.ERRCODE holds for an error (R210). -/
def ErrorCode.code : ErrorCode → BitVec 4
  | .illegalCmd => 1
  | .cmdBusy => 2
  | .invZero => 3
  | .writeBusy => 4
  | .range => 5

/-- `raise Error(code)` of R212: the first error since ERR was clear is kept. It is the block's only exception entry:
it saves nothing else, changes no mode and transfers no control (R216). -/
def State.raise (s : State) (c : ErrorCode) : State :=
  if s.err then s else { s with err := true, errcode := c.code }

/-- The host's acknowledgement of an error, the block's counterpart of a return from an exception (R217): ERR and
ERRCODE are cleared together (R43). -/
def State.ackError (s : State) : State := { s with err := false, errcode := 0 }

/-- The host's acknowledgement of a completion: DONE is cleared (R217). -/
def State.ackDone (s : State) : State := { s with done := false }

/-- The state after the acceptance of command `c`, its result `r` computed from the sources as they are now (R120). -/
def State.accepted (s : State) (c : Instr) (r : Result) : State :=
  { s with pend := some ⟨c, r⟩, busy := true, done := false }

/-- A CMD write of the word of command `c`, whose `Exec` case gives `r` (R120): rejected with CMD_BUSY while a command
is in flight, accepted otherwise. -/
def accept (c : Instr) (r : Result) (s : State) : Answer :=
  if s.busy then .next (s.raise .cmdBusy) else .next (s.accepted c r)

/-- A CMD write of an illegal word (R120): "The busy check needs no decode, so it comes first" (R214, D37). -/
def rejectWord (s : State) : Answer :=
  if s.busy then .next (s.raise .cmdBusy) else .next (s.raise .illegalCmd)

/-- The register writes of one result (R121). -/
def State.writeAll (s : State) (ws : List (FReg × FieldElem)) : State :=
  ws.foldl (fun t w => t.setFreg w.1 w.2) s

/-- What a result does to the registers and flags (R121). -/
def State.applyResult (s : State) : Result → State
  | .write ws => s.writeAll ws
  | .setZ b => { s with z := b }
  | .fail c => s.raise c

/-- PEND, BUSY and DONE at a completion (R121). -/
def State.retire (s : State) : State := { s with pend := none, busy := false, done := true }

/-- `Complete()` of R121. -/
def complete (s : State) : Answer :=
  match s.pend with
  | some c => .next (s.applyResult c.result).retire
  | none => .fault .noPending

/-- The engine's step: a completion, "enabled iff STATUS.BUSY = 1" (R121). Where it is not enabled the schedule's entry
passes without effect (log entry 5). -/
def engineStep (s : State) : Answer := if s.busy then complete s else .next s

/-- The reset step (R240): every piece of architectural state takes its value of R52, and a command in flight is
discarded. The build's parameters, the reset input and what belongs to the model stay. -/
def State.toReset (s : State) : State :=
  { State.resetOf s.params with rst := s.rst, inputs := s.inputs, replies := s.replies, draws := s.draws }

/-- The reset input is driven to `level`: asserting it is the reset step, releasing it changes nothing else (R240). -/
def driveReset (level : Bool) (s : State) : Answer :=
  if level then .next { s.toReset with rst := true } else .next { s with rst := false }

end Sys2Proof.Machine
end

