-- ==== Sys2Proof/Machine/Flags.lean ====
section
/-! DEFINITION. The control and status registers as the host sees them, their writes, the answer flag Z and the interrupt
output (10_state.md R40 to R47, R51). -/

namespace Sys2Proof.Machine

/-- One bit as a word. -/
def bitWord (b : Bool) : Word := if b then 1 else 0

/-- The word a read of STATUS returns (R40, R67). -/
def State.statusWord (s : State) : Word :=
  (s.errcode.zeroExtend 32 <<< 8) ||| (bitWord s.z <<< 3) ||| (bitWord s.err <<< 2) ||| (bitWord s.done <<< 1)
    ||| bitWord s.busy

/-- The word a read of CTRL returns: `zext_32(CTRL.IE)` (R46, R67). -/
def State.ctrlWord (s : State) : Word := bitWord s.ie

/-- The word a read of ID returns: `VERSION(8) || NF(8) || W(8) || M(8)` (R47). -/
def State.idWord (s : State) : Word := 0x01#8 ++ (0x10#8 ++ (0x1E#8 ++ BitVec.ofNat 8 s.params.M))

/-- A write of CTRL: `CTRL.IE <- v[0]`, other bits ignored (R46). -/
def State.writeCtrl (s : State) (v : Word) : State := { s with ie := v.getLsbD 0 }

/-- A write of STATUS: bit 1 clears DONE and bit 2 clears ERR with ERRCODE; all other bits are ignored (R40, R68). -/
def State.writeStatus (s : State) (v : Word) : State :=
  let s1 := if v.getLsbD 1 then s.ackDone else s
  if v.getLsbD 2 then s1.ackError else s1

/-- The answer of ISZERO (R127). -/
def zeroAnswer (a : FieldElem) : Bool := a == 0

/-- The answer of PISINF: both coordinates are 0 (R180). -/
def infinityAnswer (q : Point) : Bool := q.1 == 0 && q.2 == 0

/-- The interrupt output `irq = CTRL.IE AND (STATUS.DONE OR STATUS.ERR)`, a function of the state (R51, R220). -/
def State.irq (s : State) : Bool := s.ie && (s.done || s.err)

end Sys2Proof.Machine
end

