-- ==== Sys2Proof/Machine/Operands.lean ====
section
/-! DEFINITION. The operand forms of the commands (30_encoding.md R93 to R95): field registers (`State.freg`, in Ops),
point registers and the immediate of ITPOW. -/

namespace Sys2Proof.Machine

/-- `P[i]`, the pair `(F[2i], F[2i+1])` (R20, R34). -/
def State.preg (s : State) (i : PReg) : Point := (s.freg i.xReg, s.freg i.yReg)

/-- The writes `P[d] <- q`: both halves (R34, R170). -/
def pointWrites (d : PReg) (q : Point) : List (FReg × FieldElem) := [(d.xReg, q.1), (d.yReg, q.2)]

/-- The exponent count of ITPOW: `j = zext(IMM)`, not scaled or shifted (R95). -/
def itpowCount (j : BitVec 8) : Nat := j.toNat

end Sys2Proof.Machine
end

