-- ==== Sys2Proof/Machine/FieldCommands.lean ====
section
/-! DEFINITION. The nine field commands (40_field.md R125 to R133). Each has its `Exec` case (R122), a function of the
registers at acceptance, and its meaning: a CMD write of its word (R120). -/

namespace Sys2Proof.Machine

/-- R125: `Write[(D, 0)]`. -/
def zeroResult (d : FReg) : Result := .write [(d, 0)]
/-- ZERO Fd (R125). -/
def execZero (d : FReg) (s : State) : Answer := accept (.zero d) (zeroResult d) s

/-- R126: `Write[(D, F[A])]`. -/
def copyResult (d a : FReg) (s : State) : Result := .write [(d, s.freg a)]
/-- COPY Fd, Fa (R126). -/
def execCopy (d a : FReg) (s : State) : Answer := accept (.copy d a) (copyResult d a s) s

/-- R127: `SetZ(if F[A] = 0 then 1 else 0)`. -/
def isZeroResult (a : FReg) (s : State) : Result := .setZ (zeroAnswer (s.freg a))
/-- ISZERO Fa (R127). -/
def execIsZero (a : FReg) (s : State) : Answer := accept (.isZero a) (isZeroResult a s) s

/-- R128: `Write[(D, F[A] XOR F[B])]`. -/
def addResult (d a b : FReg) (s : State) : Result := .write [(d, fadd (s.freg a) (s.freg b))]
/-- ADD Fd, Fa, Fb (R128). -/
def execAdd (d a b : FReg) (s : State) : Answer := accept (.add d a b) (addResult d a b s) s

/-- R129: F[A] times x. -/
def mulxResult (d a : FReg) (s : State) : Result := .write [(d, fmulx s.params (s.freg a))]
/-- MULX Fd, Fa (R129). -/
def execMulx (d a : FReg) (s : State) : Answer := accept (.mulx d a) (mulxResult d a s) s

/-- R130: `Write[(D, fmul(F[A], F[B]))]`. -/
def mulResult (d a b : FReg) (s : State) : Result := .write [(d, fmul s.params (s.freg a) (s.freg b))]
/-- MUL Fd, Fa, Fb (R130). -/
def execMul (d a b : FReg) (s : State) : Answer := accept (.mul d a b) (mulResult d a b s) s

/-- R131: `Write[(D, polymod(spread(F[A][M-1:0]), f))]`. -/
def sqrResult (d a : FReg) (s : State) : Result := .write [(d, fsqr s.params (s.freg a))]
/-- SQR Fd, Fa (R131). -/
def execSqr (d a : FReg) (s : State) : Answer := accept (.sqr d a) (sqrResult d a s) s

/-- R132: `Write[(D, fpow2(F[A], j))]`. -/
def itpowResult (d a : FReg) (j : BitVec 8) (s : State) : Result :=
  .write [(d, fpow2 s.params (s.freg a) (itpowCount j))]
/-- ITPOW Fd, Fa, #j (R132). -/
def execItpow (d a : FReg) (j : BitVec 8) (s : State) : Answer := accept (.itpow d a j) (itpowResult d a j s) s

/-- R133: `Fail(INV_ZERO)` when F[A] = 0, else `Write[(D, finv(F[A]))]`. -/
def invResult (d a : FReg) (s : State) : Result :=
  if s.freg a = 0 then .fail .invZero else .write [(d, finv s.params (s.freg a))]
/-- INV Fd, Fa (R133). -/
def execInv (d a : FReg) (s : State) : Answer := accept (.inv d a) (invResult d a s) s

end Sys2Proof.Machine
end

