-- ==== Sys2Proof/Machine/Curve.lean ====
section
/-! DEFINITION. The point functions of 41_point.md R171 to R173 and the curve of 00_scope.md R19. -/

namespace Sys2Proof.Machine

/-- `O`, the point at infinity, encoded as `(0, 0)` (R19). -/
def infinity : Point := (0, 0)

/-- The right side `x^3 + a x^2 + b` of the curve equation. -/
def curveRhs (p : Params) (x : FieldElem) : FieldElem :=
  fadd (fadd (fmul p (fsqr p x) x) (fmul p p.curveA (fsqr p x))) p.curveB

/-- `OnCurve` of R19: `y^2 + xy = x^3 + a x^2 + b`. No command evaluates it (R175). -/
def onCurve (p : Params) (q : Point) : Bool :=
  fadd (fsqr p q.2) (fmul p q.1 q.2) == curveRhs p q.1

/-- The negative of a point of the curve: `-(x, y) = (x, x + y)` (R172, R103). -/
def pnegf (q : Point) : Point := (q.1, fadd q.1 q.2)

/-- The slope `lambda = x + y/x` of the tangent (R171). -/
def tangent (p : Params) (x y : FieldElem) : FieldElem := fadd x (fmul p y (finv p x))

/-- The double's coordinates from the slope `l` (R171). -/
def doubleFrom (p : Params) (l x : FieldElem) : Point :=
  (fadd (fadd (fsqr p l) l) p.curveA,
   fadd (fsqr p x) (fmul p (fadd l 1) (fadd (fadd (fsqr p l) l) p.curveA)))

/-- `pdblf` of R171. The test is on `x`, which covers O and the 2-torsion point `(0, y)` (90_conflicts.md C1). -/
def pdblf (p : Params) (q : Point) : Point :=
  if q.1 = 0 then infinity else doubleFrom p (tangent p q.1 q.2) q.1

/-- The slope `lambda = (y1 + y2)/(x1 + x2)` of the chord (R172). -/
def chord (p : Params) (q1 q2 : Point) : FieldElem :=
  fmul p (fadd q1.2 q2.2) (finv p (fadd q1.1 q2.1))

/-- The sum's x coordinate from the slope `l` (R172). -/
def sumX (p : Params) (l x1 x2 : FieldElem) : FieldElem :=
  fadd (fadd (fadd (fadd (fsqr p l) l) x1) x2) p.curveA

/-- The sum's coordinates from the slope `l` (R172). -/
def sumFrom (p : Params) (l : FieldElem) (q1 q2 : Point) : Point :=
  (sumX p l q1.1 q2.1,
   fadd (fadd (fmul p l (fadd q1.1 (sumX p l q1.1 q2.1))) (sumX p l q1.1 q2.1)) q1.2)

/-- `paddf` of R172, its tests in the rule's order. -/
def paddf (p : Params) (q1 q2 : Point) : Point :=
  if q1.1 = 0 ∧ q1.2 = 0 then q2
  else if q2.1 = 0 ∧ q2.2 = 0 then q1
  else if q1.1 = q2.1 then
    if q1.2 = q2.2 then pdblf p q1 else infinity
  else sumFrom p (chord p q1 q2) q1 q2

/-- One iteration of the Montgomery ladder for the scalar bit `bit`; both right sides use the old pair (R173). -/
def ladderStep (p : Params) (bit : Bool) (L : Point × Point) : Point × Point :=
  if bit then (paddf p L.1 L.2, pdblf p L.2) else (pdblf p L.1, paddf p L.1 L.2)

/-- The ladder over the bits `n - 1` down to `0` of `k`, from the pair `L`. -/
def ladderLoop (p : Params) (k : Scalar) : Nat → Point × Point → Point × Point
  | 0, L => L
  | n + 1, L => ladderLoop p k n (ladderStep p (k.getLsbD n) L)

/-- `ladderf` of R173: all 240 bits of the scalar, most significant first, for every scalar. -/
def ladderf (p : Params) (k : Scalar) (q : Point) : Point := (ladderLoop p k 240 (infinity, q)).1

end Sys2Proof.Machine
end

