-- ==== Sys2Proof/Machine/PointCommands.lean ====
section
/-! DEFINITION. The four point commands (41_point.md R180 to R186): `Exec` case and meaning of each. -/

namespace Sys2Proof.Machine

/-- R180: `SetZ(if F[2A] = 0 and F[2A+1] = 0 then 1 else 0)`. -/
def pisinfResult (a : PReg) (s : State) : Result := .setZ (infinityAnswer (s.preg a))
/-- PISINF Pa (R180). -/
def execPisinf (a : PReg) (s : State) : Answer := accept (.pisinf a) (pisinfResult a s) s

/-- R182: `P[D] <- pdblf(P[A])`. -/
def pdblResult (d a : PReg) (s : State) : Result := .write (pointWrites d (pdblf s.params (s.preg a)))
/-- PDBL Pd, Pa (R182). -/
def execPdbl (d a : PReg) (s : State) : Answer := accept (.pdbl d a) (pdblResult d a s) s

/-- R184: `P[D] <- paddf(P[A], P[B])`. -/
def paddResult (d a b : PReg) (s : State) : Result :=
  .write (pointWrites d (paddf s.params (s.preg a) (s.preg b)))
/-- PADD Pd, Pa, Pb (R184). -/
def execPadd (d a b : PReg) (s : State) : Answer := accept (.padd d a b) (paddResult d a b s) s

/-- R186: `P[D] <- ladderf(K, P[A])`. -/
def smulResult (d a : PReg) (s : State) : Result := .write (pointWrites d (ladderf s.params s.K (s.preg a)))
/-- SMUL Pd, Pa (R186): the scalar is always K (R102). -/
def execSmul (d a : PReg) (s : State) : Answer := accept (.smul d a) (smulResult d a s) s

end Sys2Proof.Machine
end

