-- ==== Sys2Proof/Machine/Dispatch.lean ====
section
/-! DEFINITION. The meaning of each command, one arm per constructor of Instr. `exec i s` is what a CMD write of the word
of `i` does (40_field.md R120); the completion is the engine's own step (R121). -/

namespace Sys2Proof.Machine

def exec (i : Instr) (s : State) : Host.Outcome State Fault Refusal :=
  match i with
  | .zero d => Sys2Proof.Machine.execZero d s
  | .copy d a => Sys2Proof.Machine.execCopy d a s
  | .isZero a => Sys2Proof.Machine.execIsZero a s
  | .add d a b => Sys2Proof.Machine.execAdd d a b s
  | .mulx d a => Sys2Proof.Machine.execMulx d a s
  | .mul d a b => Sys2Proof.Machine.execMul d a b s
  | .sqr d a => Sys2Proof.Machine.execSqr d a s
  | .itpow d a j => Sys2Proof.Machine.execItpow d a j s
  | .inv d a => Sys2Proof.Machine.execInv d a s
  | .pisinf a => Sys2Proof.Machine.execPisinf a s
  | .pdbl d a => Sys2Proof.Machine.execPdbl d a s
  | .padd d a b => Sys2Proof.Machine.execPadd d a b s
  | .smul d a => Sys2Proof.Machine.execSmul d a s

end Sys2Proof.Machine
end

