-- ==== Sys2Proof/Machine/Bus.lean ====
section
/-! DEFINITION. The host bus port: the address map, reads and writes of the register window (20_memory.md R60 to R74), and
the CMD register's hand-over to the decoder (40_field.md R120). -/

namespace Sys2Proof.Machine

/-- What an offset of the window names (R63). -/
inductive Target where
  | id
  | ctrl
  | status
  | cmd
  | kWord (j : Fin 8)
  | fWord (i : FReg) (j : Fin 8)
  | reserved
deriving DecidableEq, Repr

/-- The address map (R63): K.W[j] stands at `0x040 + 4·j` and F[i].W[j] at `0x100 + 0x20·i + 4·j`. -/
def target (off : Nat) : Target :=
  if off = 0x000 then .id
  else if off = 0x004 then .ctrl
  else if off = 0x008 then .status
  else if off = 0x00C then .cmd
  else if 0x040 ≤ off ∧ off ≤ 0x05C then .kWord (Fin.ofNat 8 ((off - 0x040) / 4))
  else if 0x100 ≤ off ∧ off ≤ 0x2FC then
    .fWord (Fin.ofNat 16 ((off - 0x100) / 0x20)) (Fin.ofNat 8 ((off - 0x100) % 0x20 / 4))
  else .reserved

/-- The 256-bit view of a 240-bit register: bits 255:240 are not stored and read 0 (R64, R65). -/
def view (v : BitVec 240) : BitVec 256 := v.setWidth 256

/-- Word `j` of a 256-bit view: its bits `[32j+31 : 32j]` (R64, R65). -/
def wordAt (v : BitVec 256) (j : Fin 8) : Word := v.extractLsb' (32 * j.val) 32

/-- A 256-bit view with its bits `[32j+31 : 32j]` replaced by `w` (R64, R68). -/
def putWord (v : BitVec 256) (j : Fin 8) (w : Word) : BitVec 256 :=
  (v &&& ~~~((0xFFFFFFFF#256) <<< (32 * j.val))) ||| (w.setWidth 256 <<< (32 * j.val))

/-- The word a read of `t` returns, or none where it is a free draw: a word of F or K while BUSY = 1 (R67, R70). -/
def State.readTarget (s : State) : Target → Option Word
  | .id => some s.idWord
  | .ctrl => some s.ctrlWord
  | .status => some s.statusWord
  | .cmd => some 0
  | .kWord j => if s.busy then none else some (wordAt (view s.K) j)
  | .fWord i j => if s.busy then none else some (wordAt (view (s.freg i)) j)
  | .reserved => some 0

/-- `MemRead(off, 4)` of R67. Only what belongs to the model changes: the word goes to the host, and a free draw uses up
its number. -/
def memRead (off : Nat) (s : State) : Answer :=
  match s.readTarget (target off) with
  | some w => .next { s with replies := ⟨off, w⟩ :: s.replies }
  | none => .next { s with replies := ⟨off, Config.busyRead s.draws⟩ :: s.replies, draws := s.draws + 1 }

/-- A write of K.W[j] (R65, R68, R71, R73). -/
def State.writeK (s : State) (j : Fin 8) (v : Word) : State :=
  if s.busy then s.raise .writeBusy
  else if j = 7 ∧ v.extractLsb' 16 16 ≠ 0 then s.raise .range
  else { s with K := (putWord (view s.K) j v).setWidth 240 }

/-- A write of F[i].W[j] (R64, R68, R71, R72). -/
def State.writeF (s : State) (i : FReg) (j : Fin 8) (v : Word) : State :=
  if s.busy then s.raise .writeBusy
  else if putWord (view (s.freg i)) j v >>> s.params.M ≠ 0 then s.raise .range
  else s.setFreg i ((putWord (view (s.freg i)) j v).setWidth 240)

/-- `IssueCommand(v)` of R120: the busy test comes first, in `exec` and in `rejectWord` alike. -/
def issueCommand (v : Word) (s : State) : Answer :=
  match decode v with
  | .ok i => exec i s
  | .error _ => rejectWord s

/-- `MemWrite(off, 4, v)` of R68. -/
def memWrite (off : Nat) (v : Word) (s : State) : Answer :=
  match target off with
  | .id => .next s
  | .ctrl => .next (s.writeCtrl v)
  | .status => .next (s.writeStatus v)
  | .cmd => issueCommand v s
  | .kWord j => .next (s.writeK j v)
  | .fWord i j => .next (s.writeF i j v)
  | .reserved => .next s

/-- Why an access cannot take place: the reset input is asserted (R240), or the port cannot express the access (R61,
R62). The port has no such accesses; a model of a host that issues them "must refuse them" (R62). -/
def portRefusal (size : AccessSize) (off : Nat) (s : State) : Option Refusal :=
  if s.rst then some .accessDuringReset
  else if size ≠ .word then some .subWord
  else if ¬ off < 0x1000 then some .outsideWindow
  else if off % 4 ≠ 0 then some .misaligned
  else none

/-- A host access: refused, or `access`. -/
def hostAccess (size : AccessSize) (off : Nat) (access : State → Answer) (s : State) : Answer :=
  match portRefusal size off s with
  | some r => .refused r
  | none => access s

/-- One entry of the schedule: one step of the total order of R76. -/
def takeEvent : Event → State → Answer
  | .read size off, s => hostAccess size off (memRead off) s
  | .write size off v, s => hostAccess size off (memWrite off v) s
  | .engine, s => engineStep s
  | .rst level, s => driveReset level s

/-- `s` with the schedule `es` still to come. -/
def State.schedule (s : State) (es : List Event) : State := { s with inputs := es }

/-- The write that issues a command word to CMD (R48, R90). -/
def cmdWrite (v : Word) : Event := .write .word 0x00C v

end Sys2Proof.Machine
end

