-- ==== Sys2Proof/Machine/Step.lean ====
section
/-! DEFINITION. One step of the machine: the next entry of the schedule (20_memory.md R76). -/

namespace Sys2Proof.Machine

/-- One step. With the schedule at its end the host does nothing more, and the engine takes its step: "Every accepted
command completes after a finite delay" (R255). An idle block with nothing to come stays as it is (R230). Log entry 4. -/
def step (s : State) : Host.Outcome State Fault Refusal :=
  match s.inputs with
  | [] => engineStep s
  | e :: es => takeEvent e (s.schedule es)

/-- `s` about to take a CMD write of the word whose bits are `w`: the block fetches nothing (R80), so an instruction
reaches it only so. The reset input is released, because the block takes no access while it is asserted (R240).
Log entry 15. -/
def State.withFetchWord (s : State) (nbits w : Nat) : State :=
  { s with rst := false, inputs := cmdWrite (tableWord nbits w) :: s.inputs }

end Sys2Proof.Machine
end

