-- ==== Sys2Proof/Machine/Asm.lean ====
section
/-! DEFINITION. The assembler syntax (30_encoding.md R102, R103): how a command is written, and the commands a line of text
stands for. It has no architectural effect (92_eei_decisions.md D33). Log entry 21. -/

namespace Sys2Proof.Machine

/-- A field register as an operand: `F0` .. `F15` (R102). -/
def fregText (i : FReg) : List Char := 'F' :: Nat.toDigits 10 i.val

/-- A point register as an operand: `P0` .. `P7` (R102). -/
def pregText (i : PReg) : List Char := 'P' :: Nat.toDigits 10 i.val

/-- The immediate of ITPOW as an operand, `#j` in decimal (R102). -/
def immText (j : BitVec 8) : List Char := '#' :: Nat.toDigits 10 j.toNat

/-- "the mnemonic, a space, and the operands separated by commas" (R102). -/
def lineText (mnemonic : List Char) (operands : List (List Char)) : List Char :=
  mnemonic ++ ' ' :: [',', ' '].intercalate operands

/-- A command in assembler syntax (R102). -/
def asmText : Instr → List Char
  | .zero d => lineText "ZERO".toList [fregText d]
  | .copy d a => lineText "COPY".toList [fregText d, fregText a]
  | .isZero a => lineText "ISZERO".toList [fregText a]
  | .add d a b => lineText "ADD".toList [fregText d, fregText a, fregText b]
  | .mulx d a => lineText "MULX".toList [fregText d, fregText a]
  | .mul d a b => lineText "MUL".toList [fregText d, fregText a, fregText b]
  | .sqr d a => lineText "SQR".toList [fregText d, fregText a]
  | .itpow d a j => lineText "ITPOW".toList [fregText d, fregText a, immText j]
  | .inv d a => lineText "INV".toList [fregText d, fregText a]
  | .pisinf a => lineText "PISINF".toList [pregText a]
  | .pdbl d a => lineText "PDBL".toList [pregText d, pregText a]
  | .padd d a b => lineText "PADD".toList [pregText d, pregText a, pregText b]
  | .smul d a => lineText "SMUL".toList [pregText d, pregText a]

/-- An operand of a line of text. -/
inductive AsmOperand where
  | f (i : FReg)
  | p (i : PReg)
  | imm (j : BitVec 8)
deriving DecidableEq, Repr

/-- The value of a digit in base 16. -/
def digitValue (c : Char) : Option Nat :=
  if '0' ≤ c ∧ c ≤ '9' then some (c.toNat - '0'.toNat)
  else if 'a' ≤ c ∧ c ≤ 'f' then some (c.toNat - 'a'.toNat + 10)
  else if 'A' ≤ c ∧ c ≤ 'F' then some (c.toNat - 'A'.toNat + 10)
  else none

/-- The number that the digits `cs` continue from `acc`, in `base`. -/
def digitsValue (base : Nat) : List Char → Nat → Option Nat
  | [], acc => some acc
  | c :: cs, acc => (digitValue c).bind fun v => if v < base then digitsValue base cs (base * acc + v) else none

/-- A number below `bound`, written with at least one digit in `base`. -/
def numberBelow (bound base : Nat) (cs : List Char) : Option Nat :=
  if cs = [] then none else (digitsValue base cs 0).filter (· < bound)

/-- The operand that a piece of text stands for: `F0` .. `F15`, `P0` .. `P7`, `#j` or `#0x..` (R102). -/
def readOperand : List Char → Option AsmOperand
  | 'F' :: cs => (numberBelow 16 10 cs).map fun n => .f (Fin.ofNat 16 n)
  | 'P' :: cs => (numberBelow 8 10 cs).map fun n => .p (Fin.ofNat 8 n)
  | '#' :: '0' :: 'x' :: cs => (numberBelow 256 16 cs).map fun n => .imm (BitVec.ofNat 8 n)
  | '#' :: cs => (numberBelow 256 10 cs).map fun n => .imm (BitVec.ofNat 8 n)
  | _ => none

/-- The pieces of a text between commas, spaces left out. -/
def pieces : List Char → List (List Char)
  | [] => [[]]
  | c :: cs =>
    match pieces cs with
    | [] => [[]]
    | w :: ws => if c = ',' then [] :: w :: ws else if c = ' ' then w :: ws else (c :: w) :: ws

/-- The mnemonics of R102 and R103. -/
inductive Mnemonic where
  | cmd (opcode : Nat)
  | setinf
  | pcopy
  | pneg
  | fdiv
  | sqrn
deriving DecidableEq, Repr

/-- The names of the commands, each with its opcode (R98), and of the pseudo-commands (R103). -/
def mnemonics : List (List Char × Mnemonic) :=
  [("ZERO".toList, .cmd 0x01), ("COPY".toList, .cmd 0x02), ("ISZERO".toList, .cmd 0x03), ("ADD".toList, .cmd 0x04),
   ("MULX".toList, .cmd 0x05), ("MUL".toList, .cmd 0x06), ("SQR".toList, .cmd 0x07), ("ITPOW".toList, .cmd 0x08),
   ("INV".toList, .cmd 0x09), ("PISINF".toList, .cmd 0x10), ("PDBL".toList, .cmd 0x11), ("PADD".toList, .cmd 0x12),
   ("SMUL".toList, .cmd 0x13), ("SETINF".toList, .setinf), ("PCOPY".toList, .pcopy), ("PNEG".toList, .pneg),
   ("FDIV".toList, .fdiv), ("SQRN".toList, .sqrn)]

/-- The expansion of a pseudo-command, if it is well formed. -/
def expandChecked (p : Pseudo) : Option (List Instr) :=
  match p with
  | .fdiv _ a _ t => if t ≠ a then some (expandPseudo p) else none
  | .setinf _ | .pcopy _ _ | .pneg _ _ | .sqrn _ _ _ => some (expandPseudo p)

/-- The commands of a mnemonic with its operands (R102, R103). -/
def readLine : Mnemonic → List AsmOperand → Option (List Instr)
  | .cmd 0x01, [.f d] => some [.zero d]
  | .cmd 0x02, [.f d, .f a] => some [.copy d a]
  | .cmd 0x03, [.f a] => some [.isZero a]
  | .cmd 0x04, [.f d, .f a, .f b] => some [.add d a b]
  | .cmd 0x05, [.f d, .f a] => some [.mulx d a]
  | .cmd 0x06, [.f d, .f a, .f b] => some [.mul d a b]
  | .cmd 0x07, [.f d, .f a] => some [.sqr d a]
  | .cmd 0x08, [.f d, .f a, .imm j] => some [.itpow d a j]
  | .cmd 0x09, [.f d, .f a] => some [.inv d a]
  | .cmd 0x10, [.p a] => some [.pisinf a]
  | .cmd 0x11, [.p d, .p a] => some [.pdbl d a]
  | .cmd 0x12, [.p d, .p a, .p b] => some [.padd d a b]
  | .cmd 0x13, [.p d, .p a] => some [.smul d a]
  | .setinf, [.p d] => expandChecked (.setinf d)
  | .pcopy, [.p d, .p a] => expandChecked (.pcopy d a)
  | .pneg, [.p d, .p a] => expandChecked (.pneg d a)
  | .fdiv, [.f d, .f a, .f b, .f t] => expandChecked (.fdiv d a b t)
  | .sqrn, [.f d, .f a, .imm j] => expandChecked (.sqrn d a j)
  | _, _ => none

/-- The commands that one line of assembler text stands for, or none where it is no line of R102 or R103. -/
def assemble (text : List Char) : Option (List Instr) :=
  (mnemonics.lookup (text.takeWhile (· ≠ ' '))).bind fun m =>
    ((pieces (text.dropWhile (· ≠ ' '))).mapM readOperand).bind (readLine m)

end Sys2Proof.Machine
end

