-- ==== Sys2Proof/Machine/HostScript.lean ====
section
/-! DEFINITION. The host's side as the spec writes it: the byte encoding of its buffers (20_memory.md R66) and the lines
of a host script as entries of the schedule (30_encoding.md R103, R104). Nothing here is read by a step. -/

namespace Sys2Proof.Machine

/-- Byte `b` of the W = 30-byte big-endian buffer of a value: its bits `[8·(29-b)+7 : 8·(29-b)]` (R66). -/
def bufferByte (v : BitVec 240) (b : Fin 30) : BitVec 8 := v.extractLsb' (8 * (29 - b.val)) 8

/-- The 30-byte big-endian software buffer of a field element or a scalar (R66). -/
def bufferOf (v : BitVec 240) : Vector (BitVec 8) 30 := Vector.ofFn (bufferByte v)

/-- The word a host writes at word `j` of a register to move a buffer into it (R66). -/
def bufferWord (buf : Vector (BitVec 8) 30) (j : Fin 8) : Word :=
  if j.val = 7 then 0#16 ++ (buf[0] ++ buf[1])
  else buf[26 - 4 * j.val] ++ (buf[27 - 4 * j.val] ++ (buf[28 - 4 * j.val] ++ buf[29 - 4 * j.val]))

/-- The offset of F[i].W[j] (R64). -/
def fOffset (i : FReg) (j : Fin 8) : Nat := 0x100 + 0x20 * i.val + 4 * j.val

/-- The offset of K.W[j] (R65). -/
def kOffset (j : Fin 8) : Nat := 0x040 + 4 * j.val

/-- `wr OFF, V` (R104). -/
def wr (off : Nat) (v : Word) : Event := .write .word off v

/-- `rd OFF` (R104). -/
def rd (off : Nat) : Event := .read .word off

/-- `cmd <command>`: `wr 0x00C, <encoding>` (R104). -/
def cmd (i : Instr) : Event := cmdWrite (encode i)

/-- `ld Fi, V`: eight `wr` lines, word 0 first (R104). -/
def ldF (i : FReg) (v : BitVec 240) : List Event :=
  (List.finRange 8).map fun j => wr (fOffset i j) (wordAt (view v) j)

/-- `ld K, V` (R104). -/
def ldK (v : BitVec 240) : List Event := (List.finRange 8).map fun j => wr (kOffset j) (wordAt (view v) j)

/-- `wait` in the schedule where the host reads BUSY = 1 `n` times before the engine completes and 0 once after it
(R104): "A host may read BUSY = 1 any finite number of times" (R255). -/
def wait (n : Nat) : List Event := List.replicate n (rd 0x008) ++ [.engine, rd 0x008]

/-- A pseudo-command as script lines: each command, then a wait (R103). -/
def pseudoScript (p : Pseudo) : List Event := (expandPseudo p).flatMap fun i => cmd i :: wait 0

end Sys2Proof.Machine
end

