-- ==== Sys2Proof/Machine/ExecCase.lean ====
section
/-! DEFINITION. `Exec(c, F, K)` of 40_field.md R122 as one function of the command, for statements about every command. -/

namespace Sys2Proof.Machine

/-- `Exec(c, F, K)`: "a pure total function of the decoded command, the field registers, the scalar register and the
parameters" (R122). -/
def execCase : Instr → State → Result
  | .zero d, _ => zeroResult d
  | .copy d a, s => copyResult d a s
  | .isZero a, s => isZeroResult a s
  | .add d a b, s => addResult d a b s
  | .mulx d a, s => mulxResult d a s
  | .mul d a b, s => mulResult d a b s
  | .sqr d a, s => sqrResult d a s
  | .itpow d a j, s => itpowResult d a j s
  | .inv d a, s => invResult d a s
  | .pisinf a, s => pisinfResult a s
  | .pdbl d a, s => pdblResult d a s
  | .padd d a b, s => paddResult d a b s
  | .smul d a, s => smulResult d a s

end Sys2Proof.Machine
end

