-- ==== Sys2Proof/Safety.lean ====
section
/-! DEFINITION. The terms in which the statements speak of the machine: the invariant of its states, what it means that a
command completes, and runs without a fault. -/

namespace Sys2Proof.Machine

/-- What a result writes is canonical (40_field.md R124), and the indices it writes are distinct (R121). -/
def Result.Canonical (p : Params) : Result → Prop
  | .write ws => (∀ w ∈ ws, p.Canonical w.2) ∧ (ws.map (·.1)).Nodup
  | .setZ _ => True
  | .fail _ => True

/-- The invariant of the block's states. Irreducibility of the reduction polynomial is no part of it: no step depends on
it (41_point.md R176). -/
structure State.Inv (s : State) : Prop where
  /-- the parameters meet R9 to R11 -/
  params : s.params.Sized
  /-- "Every field register is canonical at every step" (R32) -/
  canonical : ∀ i, s.params.Canonical (s.freg i)
  /-- "BUSY = 1 exactly when PEND holds a command" (R41) -/
  busy : s.busy = s.pend.isSome
  /-- DONE is cleared at acceptance and set at completion (R42), so it is 0 while a command is in flight -/
  done : s.busy = true → s.done = false
  /-- "It is 0 exactly when ERR is 0" (R45) -/
  errcode : s.err = false ↔ s.errcode = 0
  /-- codes 6 to 15 are "reserved, never produced" (R210) -/
  errcodeRange : s.errcode.toNat ≤ 5
  /-- "computing the result at acceptance gives the same observations as computing it at completion" (R49) -/
  pendResult : ∀ c, s.pend = some c → c.result = execCase c.cmd s
  /-- while the reset input is asserted the block stays as reset left it (R240) -/
  underReset : s.rst = true → s.toReset = s

/-- `s` without what belongs to the model: the architectural state of R30, the build's parameters and the reset input. -/
def State.block (s : State) : State := { s with inputs := [], replies := [], draws := 0 }

/-- Command `i`, issued in `s`, is accepted with the result `r` (R120), and the engine's next step completes it in `t`
(R121). The state in between is written out: nothing but PEND, BUSY and DONE changes at acceptance. -/
def CompletesWith (i : Instr) (s : State) (r : Result) (t : State) : Prop :=
  exec i s = .next { s with pend := some ⟨i, r⟩, busy := true, done := false } ∧
  engineStep { s with pend := some ⟨i, r⟩, busy := true, done := false } = .next t

/-- Command `i`, issued in `s`, ends with `F[d]` holding `v` and everything else but PEND, BUSY and DONE as it was. -/
def CompletesWriting (i : Instr) (s : State) (d : FReg) (v : FieldElem) : Prop :=
  CompletesWith i s (.write [(d, v)]) { s with F := s.F.set d v, pend := none, busy := false, done := true }

/-- Command `i`, issued in `s`, ends with the pair `q` in `P[d]`, that is in `F[2d]` and `F[2d+1]` (R170), and
everything else but PEND, BUSY and DONE as it was. -/
def CompletesWritingPoint (i : Instr) (s : State) (d : PReg) (q : Point) : Prop :=
  CompletesWith i s (.write [(d.xReg, q.1), (d.yReg, q.2)])
    { s with F := (s.F.set d.xReg q.1).set d.yReg q.2, pend := none, busy := false, done := true }

/-- Command `i`, issued in `s`, ends with the answer `b` in STATUS.Z and everything else but PEND, BUSY and DONE as it
was. -/
def CompletesAnswering (i : Instr) (s : State) (b : Bool) : Prop :=
  CompletesWith i s (.setZ b) { s with z := b, pend := none, busy := false, done := true }

/-- The next step from `s` is the engine's: an engine entry, or the end of the schedule (R121, R255; log entry 4). With a
command in flight that step is its completion. -/
def State.EngineTurn (s : State) : Prop := s.inputs = [] ∨ ∃ es, s.inputs = .engine :: es

/-- No run from `s`, however long, stops with a fault. -/
def State.NeverFaults (s : State) : Prop := ∀ n r, Sys2Proof.core.run n s ≠ .fault r

/-- A point of the curve: O, or a pair of canonical elements that satisfies the curve equation (R19). -/
def OnCurveOrO (p : Params) (q : Point) : Prop :=
  q = infinity ∨ (p.Canonical q.1 ∧ p.Canonical q.2 ∧ onCurve p q = true)

end Sys2Proof.Machine
end

