-- ==== Sys2Proof/Certificates/Slice0/Obligations.lean ====
section
/-! DEFINITION. The statements about the machine, one definition each. `R<n>` are the numbered rules of spec/. The
schedule `inputs`, the record `replies`, the counter `draws` and the names of the refusals are the model's own (log
entries 3, 6, 7 and 9): a clause about them says what the model does with them. -/

open Sys2Proof Sys2Proof.Machine

/-! ## Encoding -/

/-- No bit of an encoding is lost: the word of every command, with every operand the encoding admits, decodes to that
command (R91, R98, R99). -/
def Obligations.DecodeOfEncode : Prop := ∀ i : Instr, decode (encode i) = .ok i

/-- Decoding is strict: a word that decodes to a command is that command's own word, so no reserved bit, unused field or
bit 3 of a point field may be set (R94, R96, R97). -/
def Obligations.EncodeOfDecode : Prop := ∀ (w : Word) (i : Instr), decode w = .ok i → encode i = w

/-- R98, its table written out as opcode, match, mask: "a word `w` encodes the command exactly when
`(w AND mask) = match`". -/
def Obligations.DecodeFollowsMaskAndMatch : Prop :=
  ∀ w : Word, ∀ row ∈ ([(0x01, 0x00000001, 0xFFFFF0FF), (0x02, 0x00000002, 0xFFFF00FF), (0x03, 0x00000003, 0xFFFF0FFF),
      (0x04, 0x00000004, 0xFFF000FF), (0x05, 0x00000005, 0xFFFF00FF), (0x06, 0x00000006, 0xFFF000FF),
      (0x07, 0x00000007, 0xFFFF00FF), (0x08, 0x00000008, 0x00FF00FF), (0x09, 0x00000009, 0xFFFF00FF),
      (0x10, 0x00000010, 0xFFFF8FFF), (0x11, 0x00000011, 0xFFFF88FF), (0x12, 0x00000012, 0xFFF888FF),
      (0x13, 0x00000013, 0xFFFF88FF)] : List (Nat × Word × Word)),
    (∃ i, decode w = .ok i ∧ i.opcode = row.1) ↔ w &&& row.2.2 = row.2.1

/-- R96: a word with RES0 (bits 7:6) or RES1 (bits 23:20) nonzero is illegal. -/
def Obligations.ReservedBitsAreIllegal : Prop :=
  ∀ w : Word, (w.extractLsb' 6 2 ≠ 0 ∨ w.extractLsb' 20 4 ≠ 0) → ∃ r, decode w = .error r

/-- R100: every word whose opcode is 0x00, 0x0A to 0x0F or 0x14 to 0x3F is illegal, and so is the all-zero word. -/
def Obligations.ReservedOpcodesAreIllegal : Prop :=
  (∀ w : Word, (w.toNat % 64 = 0 ∨ (0x0A ≤ w.toNat % 64 ∧ w.toNat % 64 ≤ 0x0F) ∨ 0x14 ≤ w.toNat % 64) →
    ∃ r, decode w = .error r) ∧ ∃ r, decode 0 = .error r

/-- Words written out from the field layout of R91, among them the examples of R102. -/
def Obligations.DecodeSamples : Prop :=
  decode 0x00010206 = .ok (.mul 2 0 1) ∧ decode 0x74002108 = .ok (.itpow 1 2 116) ∧
  decode 0x00001212 = .ok (.padd 2 1 0) ∧ decode 0x00000313 = .ok (.smul 3 0) ∧
  decode 0x00000F01 = .ok (.zero 15) ∧ decode 0x00007010 = .ok (.pisinf 7) ∧
  decode 0x00000041 = .error .reservedBits ∧ decode 0x00001001 = .error .unusedField ∧
  decode 0x00000811 = .error .pointIndex ∧ decode 0x00000014 = .error .reservedOpcode

/-- The assembler reads every command back from its own text (R102). The exact text (a space after each comma, decimal
numbers) is the model's choice: log entry 21. -/
def Obligations.AssemblerReadsItsOwnText : Prop := ∀ i : Instr, assemble (asmText i) = some [i]

/-! ## A step and the command it runs -/

/-- A CMD write whose word decodes to `i` runs the meaning of `i`; the step adds only that the schedule moves on (R120). -/
def Obligations.StepRunsDecodedCommand : Prop :=
  ∀ (s : State) (w : Word) (es : List Event) (i : Instr), s.rst = false → s.inputs = .write .word 0x00C w :: es →
    decode w = .ok i → step s = exec i { s with inputs := es }

/-- A CMD write of an illegal word is rejected: CMD_BUSY (2) while a command is in flight, ILLEGAL_CMD (1) otherwise, the
first error being kept; nothing else changes (R99, R211, R212, R214). -/
def Obligations.StepRejectsIllegalWord : Prop :=
  ∀ (s : State) (w : Word) (es : List Event) (r : Illegal), s.rst = false → s.inputs = .write .word 0x00C w :: es →
    decode w = .error r →
    step s = .next { s with inputs := es, err := true,
                            errcode := if s.err then s.errcode else if s.busy then 2 else 1 }

/-- R120: while no command is in flight every command is accepted, whatever its operands. Its result is computed from the
registers as they are; only PEND, BUSY and DONE change. -/
def Obligations.IdleBlockAcceptsEveryCommand : Prop :=
  ∀ (i : Instr) (s : State), s.busy = false →
    exec i s = .next { s with pend := some ⟨i, execCase i s⟩, busy := true, done := false }

/-- While a command is in flight every command is turned away with CMD_BUSY (2), and nothing but ERR and ERRCODE changes
(R120, R210, R211, R212). -/
def Obligations.BusyBlockTurnsCommandsAway : Prop :=
  ∀ (i : Instr) (s : State), s.busy = true →
    exec i s = .next { s with err := true, errcode := if s.err then s.errcode else 2 }

/-! ## The commands: each completes, with its value and its frame -/

/-- R125. -/
def Obligations.ZeroCompletes : Prop :=
  ∀ (s : State) (d : FReg), s.busy = false → CompletesWriting (.zero d) s d 0

/-- R126. -/
def Obligations.CopyCompletes : Prop :=
  ∀ (s : State) (d a : FReg), s.busy = false → CompletesWriting (.copy d a) s d s.F[a]

/-- R127: the answer is 1 exactly when all 240 bits of F[A] are zero. -/
def Obligations.IsZeroCompletes : Prop :=
  ∀ (s : State) (a : FReg), s.busy = false → CompletesAnswering (.isZero a) s (decide (s.F[a] = 0))

/-- R128. -/
def Obligations.AddCompletes : Prop :=
  ∀ (s : State) (d a b : FReg), s.busy = false → CompletesWriting (.add d a b) s d (s.F[a] ^^^ s.F[b])

/-- R129, bit by bit: the value is F[A] shifted left by one with the bit shifted to degree M dropped, and RPOLY_LOW added
when bit M-1 of F[A] was set. -/
def Obligations.MulxCompletes : Prop :=
  ∀ (s : State) (d a : FReg), s.busy = false → s.params.Sized →
    ∃ v : FieldElem, CompletesWriting (.mulx d a) s d v ∧
      ∀ n < 240, v.getLsbD n = (decide (n < s.params.M) &&
        ((decide (0 < n) && s.F[a].getLsbD (n - 1)) ^^
          (s.F[a].getLsbD (s.params.M - 1) && s.params.rpolyLow.getLsbD n)))

/-- R130: the value is the remainder of the carry-less product of the sources on division by `f`: it has degree below M
and differs from the product by a multiple of `f` (R18). -/
def Obligations.MulCompletes : Prop :=
  ∀ (s : State) (d a b : FReg), s.busy = false → s.params.Sized →
    ∃ v : FieldElem, CompletesWriting (.mul d a b) s d v ∧ v.toNat < 2 ^ s.params.M ∧
      ∃ q, clmul (s.params.low s.F[a]) (s.params.low s.F[b]) = clmul q s.params.rpoly ^^^ v.toNat

/-- R131: the value is the remainder of the bit-spread source on division by `f`, which is the value MUL gives for the
source times itself. -/
def Obligations.SqrCompletes : Prop :=
  ∀ (s : State) (d a : FReg), s.busy = false → s.params.Sized →
    CompletesWriting (.sqr d a) s d (fmul s.params s.F[a] s.F[a]) ∧
      (fmul s.params s.F[a] s.F[a]).toNat < 2 ^ s.params.M ∧
      ∃ q, spread (s.params.low s.F[a]) = clmul q s.params.rpoly ^^^ (fmul s.params s.F[a] s.F[a]).toNat

/-- R132: `j` squarings, `j` the zero-extended immediate (R95). -/
def Obligations.ItpowCompletes : Prop :=
  ∀ (s : State) (d a : FReg) (j : BitVec 8), s.busy = false →
    CompletesWriting (.itpow d a j) s d ((fsqr s.params)^[j.toNat] s.F[a])

/-- R133 for a nonzero source: the value is F[A] raised to the exponent `2^M - 2` by repeated `fmul` (R18). -/
def Obligations.InvCompletes : Prop :=
  ∀ (s : State) (d a : FReg), s.busy = false → s.params.Sized → s.F[a] ≠ 0 →
    CompletesWriting (.inv d a) s d ((fun t => fmul s.params t s.F[a])^[2 ^ s.params.M - 2] 1)

/-- R133 for a zero source: the command completes with INV_ZERO (3), the first error being kept, and writes no register. -/
def Obligations.InvOfZeroRecordsError : Prop :=
  ∀ (s : State) (d a : FReg), s.busy = false → s.F[a] = 0 →
    CompletesWith (.inv d a) s (.fail .invZero)
      { s with err := true, errcode := if s.err then s.errcode else 3, pend := none, busy := false, done := true }

/-- R180: the answer is 1 exactly when both coordinates are 0. -/
def Obligations.PisinfCompletes : Prop :=
  ∀ (s : State) (a : PReg), s.busy = false →
    CompletesAnswering (.pisinf a) s (decide (s.F[a.xReg] = 0 ∧ s.F[a.yReg] = 0))

/-- R182 with R171: O where x = 0; else the affine doubling formula for the slope `l = x + y/x`. -/
def Obligations.PdblCompletes : Prop :=
  ∀ (s : State) (d a : PReg) (x y l x3 y3 : FieldElem), s.busy = false → x = s.F[a.xReg] → y = s.F[a.yReg] →
    l = x ^^^ fmul s.params y (finv s.params x) → x3 = fsqr s.params l ^^^ l ^^^ s.params.curveA →
    y3 = fsqr s.params x ^^^ fmul s.params (l ^^^ 1) x3 →
    CompletesWritingPoint (.pdbl d a) s d (if x = 0 then (0, 0) else (x3, y3))

/-- R184 with R172: either operand O gives the other; equal x with equal y doubles; equal x with unequal y gives O; else
the affine chord formula for the slope `l = (y1 + y2)/(x1 + x2)`. -/
def Obligations.PaddCompletes : Prop :=
  ∀ (s : State) (d a b : PReg) (x1 y1 x2 y2 l x3 y3 : FieldElem), s.busy = false →
    x1 = s.F[a.xReg] → y1 = s.F[a.yReg] → x2 = s.F[b.xReg] → y2 = s.F[b.yReg] →
    l = fmul s.params (y1 ^^^ y2) (finv s.params (x1 ^^^ x2)) →
    x3 = fsqr s.params l ^^^ l ^^^ x1 ^^^ x2 ^^^ s.params.curveA →
    y3 = fmul s.params l (x1 ^^^ x3) ^^^ x3 ^^^ y1 →
    CompletesWritingPoint (.padd d a b) s d
      (if x1 = 0 ∧ y1 = 0 then (x2, y2) else if x2 = 0 ∧ y2 = 0 then (x1, y1)
       else if x1 = x2 then (if y1 = y2 then pdblf s.params (x1, y1) else (0, 0)) else (x3, y3))

/-- R186 with R173: the Montgomery ladder over the bits 239 down to 0 of K, both right sides from the old pair. -/
def Obligations.SmulCompletes : Prop :=
  ∀ (s : State) (d a : PReg), s.busy = false →
    CompletesWritingPoint (.smul d a) s d
      ((List.range 240).reverse.foldl
        (fun L n => if s.K.getLsbD n = true then (paddf s.params L.1 L.2, pdblf s.params L.2)
                    else (pdblf s.params L.1, paddf s.params L.1 L.2))
        (((0, 0), (s.F[a.xReg], s.F[a.yReg])) : Point × Point)).1

/-! ## The polynomial primitives and the laws of the field -/

/-- R18: bit `k` of `clmul(a, b)` is the XOR over all `i + j = k` of `a[i] AND b[j]`, and `spread(a)` puts a zero bit after
every bit of `a`. -/
def Obligations.ProductAndSpreadBits : Prop :=
  (∀ a b k : Nat, (clmul a b).testBit k =
    decide ((List.range (k + 1)).countP (fun i => a.testBit i && b.testBit (k - i)) % 2 = 1)) ∧
  ∀ a i : Nat, (spread a).testBit (2 * i) = a.testBit i ∧ (spread a).testBit (2 * i + 1) = false

/-- R18: `polymod(v, f)` is the unique `u` of degree below that of `f` with `v = q*f + u` for some `q`. -/
def Obligations.PolymodIsUniqueRemainder : Prop :=
  ∀ v f u : Nat, f ≠ 0 → (u = polymod v f ↔ u < 2 ^ f.log2 ∧ ∃ q, v = clmul q f ^^^ u)

/-- R135, all its clauses: MUL is commutative and associative and distributes over ADD, 1 is its identity and 0 absorbs;
SQR is MUL of equal operands and is additive; MULX is MUL by x. -/
def Obligations.MultiplicationLaws : Prop :=
  ∀ (p : Params) (a b c : FieldElem), p.Sized → p.Canonical a → p.Canonical b → p.Canonical c →
    fmul p a b = fmul p b a ∧ fmul p (fmul p a b) c = fmul p a (fmul p b c) ∧
    fmul p a (fadd b c) = fadd (fmul p a b) (fmul p a c) ∧ fmul p a 1 = a ∧ fmul p a 0 = 0 ∧
    fsqr p a = fmul p a a ∧ fsqr p (fadd a b) = fadd (fsqr p a) (fsqr p b) ∧ fmulx p a = fmul p a 2

/-- R136: repeated squarings add up, and for an irreducible `f` they have period M. -/
def Obligations.FrobeniusLaws : Prop :=
  ∀ (p : Params) (a : FieldElem), p.Sized → p.Canonical a →
    (∀ i j, fpow2 p (fpow2 p a i) j = fpow2 p a (i + j)) ∧
    (p.Irreducible → fpow2 p a p.M = a ∧ ∀ j, fpow2 p a j = fpow2 p a (j % p.M))

/-- R137: for an irreducible `f`, the value of INV is the multiplicative inverse. -/
def Obligations.InverseLaws : Prop :=
  ∀ (p : Params) (a : FieldElem), p.WellFormed → p.Canonical a → a ≠ 0 →
    fmul p a (finv p a) = 1 ∧ finv p (finv p a) = a ∧ finv p 1 = 1

/-- R138: the Itoh-Tsujii step for `beta_k(a) = a^(2^k - 1)`, and INV's value as the square of `beta_(M-1)`. -/
def Obligations.ItohTsujiiChain : Prop :=
  ∀ (p : Params) (a : FieldElem), p.Sized → p.Canonical a →
    fexp p a (2 ^ 1 - 1) = a ∧
    (∀ i j, 1 ≤ i → 1 ≤ j →
      fexp p a (2 ^ (i + j) - 1) = fmul p (fpow2 p (fexp p a (2 ^ i - 1)) j) (fexp p a (2 ^ j - 1))) ∧
    finv p a = fsqr p (fexp p a (2 ^ (p.M - 1) - 1))

/-- R124: every value a command writes to a field register is canonical, where the registers are; and the registers one
command writes are distinct (R121). -/
def Obligations.CommandResultsAreCanonical : Prop :=
  ∀ (i : Instr) (s : State), s.params.Sized → (∀ r, s.params.Canonical (s.freg r)) →
    (execCase i s).Canonical s.params

/-- R123, R176: after acceptance only INV can fail, only for a zero source, and only with INV_ZERO; and only ISZERO and
PISINF answer in Z. -/
def Obligations.OnlyInvOfZeroFails : Prop :=
  ∀ (i : Instr) (s : State),
    (∀ c, execCase i s = .fail c → c = .invZero ∧ ∃ d a, i = .inv d a ∧ s.F[a] = 0) ∧
    (∀ b, execCase i s = .setZ b → (∃ a, i = .isZero a) ∨ ∃ a, i = .pisinf a)

/-! ## Points -/

/-- R188, for every pair, on the curve or not. -/
def Obligations.PointBoundaryLaws : Prop :=
  ∀ (p : Params) (q : Point) (k : Scalar),
    paddf p q infinity = q ∧ paddf p infinity q = q ∧ pdblf p infinity = infinity ∧
    ladderf p 0 q = infinity ∧ ladderf p k infinity = infinity ∧ ladderf p 1 q = q

/-- R174: on the curve, `paddf` is the addition of an abelian group with identity O and negation `(x, x + y)`, closed on
the curve's points, and `pdblf` is its doubling. The group law is a fact the spec takes from general knowledge (log entry
23), and what irreducible means in `WellFormed` is said in log entry 22. -/
def Obligations.PointAdditionIsAGroupLaw : Prop :=
  ∀ (p : Params) (q1 q2 q3 : Point), p.WellFormed → OnCurveOrO p q1 → OnCurveOrO p q2 → OnCurveOrO p q3 →
    OnCurveOrO p (paddf p q1 q2) ∧ OnCurveOrO p (pdblf p q1) ∧ OnCurveOrO p (pnegf q1) ∧
    pdblf p q1 = paddf p q1 q1 ∧ paddf p q1 q2 = paddf p q2 q1 ∧
    paddf p (paddf p q1 q2) q3 = paddf p q1 (paddf p q2 q3) ∧ paddf p q1 (pnegf q1) = infinity

/-- R174: on the curve the ladder computes `k·P`, the sum of `k` copies of the point. The spec takes this from general
knowledge (log entry 23), and what irreducible means in `WellFormed` is said in log entry 22. -/
def Obligations.LadderIsRepeatedAddition : Prop :=
  ∀ (p : Params) (k : Scalar) (q : Point), p.WellFormed → OnCurveOrO p q →
    ladderf p k q = (fun r => paddf p r q)^[k.toNat] infinity

/-- R34: P[i] is the pair (F[2i], F[2i+1]): writing the point writes both registers and no other point, and writing either
register changes the point. -/
def Obligations.PointRegisterIsAView : Prop :=
  ∀ (s : State) (d : PReg) (q : Point) (v : FieldElem),
    (∀ i : FReg, i.val = 2 * d.val → (s.preg d).1 = s.F[i]) ∧
    (∀ i : FReg, i.val = 2 * d.val + 1 → (s.preg d).2 = s.F[i]) ∧
    (s.writeAll (pointWrites d q)).preg d = q ∧
    (∀ a, a ≠ d → (s.writeAll (pointWrites d q)).preg a = s.preg a) ∧
    (s.setFreg d.xReg v).preg d = (v, (s.preg d).2) ∧ (s.setFreg d.yReg v).preg d = ((s.preg d).1, v)

/-! ## Reset and the invariant -/

/-- The state after reset meets the invariant: for the default instance, and for any parameters meeting R9 to R11 (their
irreducibility clause left aside). That reset takes the default instance is the model's choice: log entry 1. -/
def Obligations.ResetMeetsInvariant : Prop :=
  State.reset.Inv ∧ ∀ p : Params, p.Sized → (State.resetOf p).Inv

/-- R32, R41, R42, R45, R49, R210, R240: every step keeps the invariant, and no step changes the build's parameters. -/
def Obligations.StepKeepsInvariant : Prop :=
  ∀ s t : State, s.Inv → step s = .next t → t.Inv ∧ t.params = s.params

/-- No run from a state that meets the invariant stops with a fault. -/
def Obligations.InvariantRunsNeverFault : Prop := ∀ s : State, s.Inv → s.NeverFaults

/-- R52, R240: asserting the reset input gives every piece of architectural state its reset value from any state, also
while a command is in flight; the interrupt output is then 0 and ID is the constant of the build. -/
def Obligations.ResetStepClearsEverything : Prop :=
  ∀ (s : State) (es : List Event), s.inputs = .rst true :: es →
    ∃ t, step s = .next t ∧ (∀ i : FReg, t.F[i] = 0) ∧ t.K = 0 ∧ t.ie = false ∧ t.busy = false ∧ t.done = false ∧
      t.err = false ∧ t.z = false ∧ t.errcode = 0 ∧ t.pend = none ∧ t.irq = false ∧ t.params = s.params ∧
      (s.params.M < 256 → t.idWord = BitVec.ofNat 32 (0x01101E00 + s.params.M)) ∧
      t.rst = true ∧ t.inputs = es ∧ t.replies = s.replies

/-! ## Rules over every step -/

/-- R37: K changes only by a host write to its words while the block is idle, and by reset. -/
def Obligations.ScalarChangesOnlyByHost : Prop :=
  ∀ s t : State, step s = .next t → t.K ≠ s.K →
    (∃ (j : Fin 8) (v : Word) (es : List Event),
      s.busy = false ∧ s.inputs = .write .word (0x040 + 4 * j.val) v :: es) ∨
    ∃ es, s.inputs = .rst true :: es

/-- R44: Z changes only at the completion of an ISZERO or a PISINF (in states of the invariant), where it takes the answer,
and by reset, which clears it. -/
def Obligations.ZChangesOnlyByTests : Prop :=
  ∀ s t : State, s.Inv → step s = .next t →
    (t.z ≠ s.z →
      (s.EngineTurn ∧ s.busy = true ∧ t.busy = false ∧ t.done = true ∧ t.pend = none ∧
        ∃ c b, s.pend = some c ∧ c.result = .setZ b ∧ t.z = b ∧ ((∃ a, c.cmd = .isZero a) ∨ ∃ a, c.cmd = .pisinf a)) ∨
      ∃ es, s.inputs = .rst true :: es) ∧
    ∀ es, s.inputs = .rst true :: es → t.z = false

/-- R31, R254: a field register changes only by a host write to its own words while the block is idle, by the completion of
a command that writes it, which leaves it holding the value the command's result has for it, and by reset, which clears
it. -/
def Obligations.FieldRegisterChanges : Prop :=
  ∀ (s t : State) (i : FReg), step s = .next t → t.F[i] ≠ s.F[i] →
    (∃ (j : Fin 8) (v : Word) (es : List Event),
      s.busy = false ∧ s.inputs = .write .word (0x100 + 0x20 * i.val + 4 * j.val) v :: es) ∨
    (s.EngineTurn ∧ s.busy = true ∧ t.busy = false ∧ t.done = true ∧ t.pend = none ∧
      ∃ c ws v, s.pend = some c ∧ c.result = .write ws ∧ (i, v) ∈ ws ∧ t.F[i] = v) ∨
    ∃ es, s.inputs = .rst true :: es ∧ t.F[i] = 0

/-- R43, R45: once ERR is 1, ERR and ERRCODE stay until the host writes STATUS with bit 2 set, which clears both, or until
reset; while ERR is 0, ERRCODE changes only together with ERR. -/
def Obligations.ErrorIsSticky : Prop :=
  ∀ s t : State, step s = .next t →
    (s.err = true → (t.err = true ∧ t.errcode = s.errcode) ∨
      (t.err = false ∧ t.errcode = 0 ∧
        ((∃ v es, s.inputs = .write .word 0x008 v :: es ∧ v.getLsbD 2 = true) ∨ ∃ es, s.inputs = .rst true :: es))) ∧
    (s.err = false → s.errcode = 0 → (t.err = false ∧ t.errcode = 0) ∨ (t.err = true ∧ ∃ c : ErrorCode, t.errcode = c.code))

/-- R41, R42: BUSY rises only when a CMD write is accepted, which clears DONE, and falls only at a completion, the engine's
step, which sets DONE, or at reset; DONE rises only there, and otherwise falls only by a write of STATUS with bit 1 set, or
at reset. -/
def Obligations.BusyAndDoneTransitions : Prop :=
  ∀ s t : State, step s = .next t →
    (s.busy = false → t.busy = true → t.done = false ∧ ∃ w es i, s.inputs = .write .word 0x00C w :: es ∧ decode w = .ok i) ∧
    (s.busy = true → t.busy = false → (s.EngineTurn ∧ t.done = true ∧ t.pend = none) ∨
      ∃ es, s.inputs = .rst true :: es) ∧
    (s.done = false → t.done = true → s.EngineTurn ∧ s.busy = true ∧ t.busy = false) ∧
    (s.done = true → t.done = false → (s.busy = false ∧ t.busy = true) ∨
      (∃ v es, s.inputs = .write .word 0x008 v :: es ∧ v.getLsbD 1 = true) ∨ ∃ es, s.inputs = .rst true :: es)

/-- R71, R80, R211, R217: while a command is in flight no host access changes F, K, Z or the command. -/
def Obligations.HostCannotDisturbCommand : Prop :=
  ∀ (s t : State) (e : Event) (es : List Event), s.busy = true → s.inputs = e :: es →
    ((∃ z off, e = .read z off) ∨ ∃ z off v, e = .write z off v) → step s = .next t →
    t.F = s.F ∧ t.K = s.K ∧ t.z = s.z ∧ t.pend = s.pend ∧ t.busy = true

/-- R255: a command in flight completes, whatever accesses the host makes before the schedule ends, unless a reset comes.
That a schedule at its end gives the engine its step is the model's form of fairness: log entry 4. -/
def Obligations.CommandEventuallyCompletes : Prop :=
  ∀ s : State, s.Inv → s.busy = true → s.rst = false → (∀ e ∈ s.inputs, e.OnPort ∧ ∀ b, e ≠ .rst b) →
    ∃ k t, k ≤ s.inputs.length + 1 ∧ Sys2Proof.core.run k s = .next t ∧ t.busy = false ∧ t.done = true

/-- R51, R220: the interrupt output is CTRL.IE AND (STATUS.DONE OR STATUS.ERR) in every state. So when a command has
completed it is CTRL.IE, whatever the command, and so it is when a step has raised an error; a write of STATUS with bits 1
and 2 set clears it, and so does a write of CTRL with bit 0 clear. -/
def Obligations.InterruptFollowsCompletion : Prop :=
  (∀ s : State, s.irq = true ↔ s.ie = true ∧ (s.done = true ∨ s.err = true)) ∧
  (∀ s t : State, step s = .next t → s.err = false → t.err = true → t.irq = s.ie) ∧
  (∀ (i : Instr) (s t : State) (r : Result), CompletesWith i s r t → t.irq = s.ie) ∧
  ∀ (s : State) (v : Word) (es : List Event), s.rst = false →
    ((s.inputs = .write .word 0x008 v :: es ∧ v.getLsbD 1 = true ∧ v.getLsbD 2 = true) ∨
      (s.inputs = .write .word 0x004 v :: es ∧ v.getLsbD 0 = false)) →
    ∃ t, step s = .next t ∧ t.irq = false

/-! ## The host bus -/

/-- R64, R65, R67: while the block is idle a read of F[i].W[j] or of K.W[j] returns bits 32j to 32j+31 of the register, and
0 for the bits that are not stored; nothing but the host's record of reads changes. -/
def Obligations.IdleReadsReturnRegisterWords : Prop :=
  ∀ (s : State) (es : List Event) (j : Fin 8) (off : Nat) (x : BitVec 240), s.rst = false → s.busy = false →
    s.inputs = .read .word off :: es →
    ((off = 0x040 + 4 * j.val ∧ x = s.K) ∨ ∃ i : FReg, off = 0x100 + 0x20 * i.val + 4 * j.val ∧ x = s.F[i]) →
    ∃ w : Word, step s = .next { s with inputs := es, replies := ⟨off, w⟩ :: s.replies } ∧
      ∀ n < 32, w.getLsbD n = x.getLsbD (32 * j.val + n)

/-- R70: while a command is in flight such a read returns a free draw, a fresh one each time. -/
def Obligations.BusyReadsAreFreeDraws : Prop :=
  ∀ (s : State) (es : List Event) (j : Fin 8) (off : Nat), s.rst = false → s.busy = true →
    s.inputs = .read .word off :: es →
    (off = 0x040 + 4 * j.val ∨ ∃ i : FReg, off = 0x100 + 0x20 * i.val + 4 * j.val) →
    step s = .next { s with inputs := es, replies := ⟨off, Config.busyRead s.draws⟩ :: s.replies, draws := s.draws + 1 }

/-- R40, R46, R47, R48, R67: what reads of ID, CTRL, STATUS and CMD return, busy or not, bit by bit for STATUS. -/
def Obligations.ControlRegisterReads : Prop :=
  ∀ (s : State) (es : List Event) (off : Nat), s.rst = false → s.inputs = .read .word off :: es →
    (off = 0x000 → s.params.M < 256 → step s =
      .next { s with inputs := es, replies := ⟨off, BitVec.ofNat 32 (0x01101E00 + s.params.M)⟩ :: s.replies }) ∧
    (off = 0x004 → step s = .next { s with inputs := es, replies := ⟨off, if s.ie then 1 else 0⟩ :: s.replies }) ∧
    (off = 0x008 → ∃ w : Word, step s = .next { s with inputs := es, replies := ⟨off, w⟩ :: s.replies } ∧
      w.getLsbD 0 = s.busy ∧ w.getLsbD 1 = s.done ∧ w.getLsbD 2 = s.err ∧ w.getLsbD 3 = s.z ∧
      (∀ n < 4, w.getLsbD (8 + n) = s.errcode.getLsbD n) ∧
      ∀ n < 32, (4 ≤ n ∧ n ≤ 7) ∨ 12 ≤ n → w.getLsbD n = false) ∧
    (off = 0x00C → step s = .next { s with inputs := es, replies := ⟨off, 0⟩ :: s.replies })

/-- R69: a read of a reserved offset returns 0; a write to a reserved offset, or to ID, is ignored. -/
def Obligations.ReservedOffsetsAreInert : Prop :=
  ∀ (s : State) (es : List Event) (off : Nat) (v : Word), s.rst = false → off % 4 = 0 → off < 0x1000 →
    (0x010 ≤ off ∧ off ≤ 0x03C) ∨ (0x060 ≤ off ∧ off ≤ 0x0FC) ∨ 0x300 ≤ off ∨ off = 0 →
    (s.inputs = .read .word off :: es → off ≠ 0 →
      step s = .next { s with inputs := es, replies := ⟨off, 0⟩ :: s.replies }) ∧
    (s.inputs = .write .word off v :: es → step s = .next { s with inputs := es })

/-- R64, R68, R71, R72: a write of F[i].W[j] is discarded with WRITE_BUSY (4) while a command is in flight, and with RANGE
(5) when it would set a bit at position M or above; else it replaces those 32 bits and nothing else. -/
def Obligations.FieldWordWrites : Prop :=
  ∀ (s : State) (es : List Event) (i : FReg) (j : Fin 8) (v : Word), s.Inv → s.rst = false →
    s.inputs = .write .word (0x100 + 0x20 * i.val + 4 * j.val) v :: es →
    (s.busy = true →
      step s = .next { s with inputs := es, err := true, errcode := if s.err then s.errcode else 4 }) ∧
    (s.busy = false → (∃ n < 32, v.getLsbD n = true ∧ s.params.M ≤ 32 * j.val + n) →
      step s = .next { s with inputs := es, err := true, errcode := if s.err then s.errcode else 5 }) ∧
    (s.busy = false → (∀ n < 32, v.getLsbD n = true → 32 * j.val + n < s.params.M) →
      ∃ x : FieldElem, step s = .next { s with inputs := es, F := s.F.set i x } ∧
        ∀ n < 240, x.getLsbD n =
          if 32 * j.val ≤ n ∧ n < 32 * j.val + 32 then v.getLsbD (n - 32 * j.val) else s.F[i].getLsbD n)

/-- R65, R68, R71, R73: a write of K.W[j] is discarded with WRITE_BUSY (4) while a command is in flight, and with RANGE (5)
when j = 7 and any of bits 31:16 is set; else it replaces those bits and nothing else, whatever their value. -/
def Obligations.ScalarWordWrites : Prop :=
  ∀ (s : State) (es : List Event) (j : Fin 8) (v : Word), s.rst = false →
    s.inputs = .write .word (0x040 + 4 * j.val) v :: es →
    (s.busy = true →
      step s = .next { s with inputs := es, err := true, errcode := if s.err then s.errcode else 4 }) ∧
    (s.busy = false → j = 7 ∧ 2 ^ 16 ≤ v.toNat →
      step s = .next { s with inputs := es, err := true, errcode := if s.err then s.errcode else 5 }) ∧
    (s.busy = false → ¬ (j = 7 ∧ 2 ^ 16 ≤ v.toNat) →
      ∃ x : Scalar, step s = .next { s with inputs := es, K := x } ∧
        ∀ n < 240, x.getLsbD n =
          if 32 * j.val ≤ n ∧ n < 32 * j.val + 32 then v.getLsbD (n - 32 * j.val) else s.K.getLsbD n)

/-- R40, R46, R68: a write of CTRL sets IE to bit 0, busy or not; a write of STATUS clears DONE where bit 1 is set and ERR
with ERRCODE where bit 2 is set; nothing else changes. -/
def Obligations.ControlRegisterWrites : Prop :=
  ∀ (s : State) (es : List Event) (v : Word), s.rst = false →
    (s.inputs = .write .word 0x004 v :: es → step s = .next { s with inputs := es, ie := v.getLsbD 0 }) ∧
    (s.inputs = .write .word 0x008 v :: es →
      step s = .next { s with inputs := es, done := s.done && !(v.getLsbD 1),
                              err := s.err && !(v.getLsbD 2), errcode := if v.getLsbD 2 then 0 else s.errcode })

/-- R61, R62, R240, I15: an access that the port cannot express, or made while the reset input is asserted, is refused.
That an access outside the window is refused too is the model's reading: log entry 9. -/
def Obligations.UnportableAccessesAreRefused : Prop :=
  ∀ (s : State) (e : Event) (es : List Event) (z : AccessSize) (off : Nat), s.inputs = e :: es →
    (e = .read z off ∨ ∃ v, e = .write z off v) →
    (s.rst = true → step s = .refused .accessDuringReset) ∧
    (s.rst = false → z ≠ .word → step s = .refused .subWord) ∧
    (s.rst = false → z = .word → 0x1000 ≤ off → step s = .refused .outsideWindow) ∧
    (s.rst = false → z = .word → off < 0x1000 → off % 4 ≠ 0 → step s = .refused .misaligned)

/-- R64, R104: eight writes, word 0 first, load a canonical value into a field register, whatever it held before. -/
def Obligations.EightWritesLoadARegister : Prop :=
  ∀ (s : State) (es : List Event) (i : FReg) (v : FieldElem), s.Inv → s.rst = false → s.busy = false →
    s.params.Canonical v → s.inputs = ldF i v ++ es →
    Sys2Proof.core.run 8 s = .next { s with inputs := es, F := s.F.set i v }

/-- R66: the words a host writes from the 30-byte big-endian buffer of a value are the words of its register. -/
def Obligations.BufferWordsAreRegisterWords : Prop :=
  ∀ (v : BitVec 240) (j : Fin 8) (n : Nat), n < 32 →
    (bufferWord (bufferOf v) j).getLsbD n = v.getLsbD (32 * j.val + n)

/-! ## Pseudo-commands -/

/-- R103: issued one after the other, each completing before the next, the commands of SETINF, PCOPY, PNEG and SQRN leave
in the destination what the pseudo-command names, also where it is the source; those of FDIV leave the quotient where the
scratch register differs from the dividend and the divisor is not zero. No other field register, K, Z, ERR or ERRCODE
changes. -/
def Obligations.PseudoCommandsDoWhatTheyName : Prop :=
  ∀ (s : State) (c : Pseudo), s.busy = false → s.rst = false → c.WellFormed →
    s.inputs = (expandPseudo c).flatMap (fun i => [cmd i, .engine]) →
    ∃ t, Sys2Proof.core.run s.inputs.length s = .next t ∧ t.K = s.K ∧ t.z = s.z ∧ t.busy = false ∧
      match c with
      | .setinf d => t.preg d = infinity ∧ t.err = s.err ∧ t.errcode = s.errcode ∧
          ∀ i, i ≠ d.xReg → i ≠ d.yReg → t.F[i] = s.F[i]
      | .pcopy d a => t.preg d = s.preg a ∧ t.err = s.err ∧ t.errcode = s.errcode ∧
          ∀ i, i ≠ d.xReg → i ≠ d.yReg → t.F[i] = s.F[i]
      | .pneg d a => t.preg d = pnegf (s.preg a) ∧ t.err = s.err ∧ t.errcode = s.errcode ∧
          ∀ i, i ≠ d.xReg → i ≠ d.yReg → t.F[i] = s.F[i]
      | .fdiv d a b x => s.F[b] ≠ 0 → t.F[d] = fmul s.params s.F[a] (finv s.params s.F[b]) ∧ t.err = s.err ∧
          t.errcode = s.errcode ∧ ∀ i, i ≠ d → i ≠ x → t.F[i] = s.F[i]
      | .sqrn d a j => t.F[d] = fpow2 s.params s.F[a] j.toNat ∧ t.err = s.err ∧ t.errcode = s.errcode ∧
          ∀ i, i ≠ d → t.F[i] = s.F[i]
end

