-- ==== Sys2Proof/Laws/State.lean ====
section
/-! SUPPORT. What each named update does to each field of State: one lemma per field and update. -/

namespace Sys2Proof.Machine

section Updates

variable (s : State)

@[simp] theorem setFreg_params (i : FReg) (v : FieldElem) : (s.setFreg i v).params = s.params := rfl
@[simp] theorem setFreg_F (i : FReg) (v : FieldElem) : (s.setFreg i v).F = s.F.set i v := rfl
@[simp] theorem setFreg_K (i : FReg) (v : FieldElem) : (s.setFreg i v).K = s.K := rfl
@[simp] theorem setFreg_ie (i : FReg) (v : FieldElem) : (s.setFreg i v).ie = s.ie := rfl
@[simp] theorem setFreg_busy (i : FReg) (v : FieldElem) : (s.setFreg i v).busy = s.busy := rfl
@[simp] theorem setFreg_done (i : FReg) (v : FieldElem) : (s.setFreg i v).done = s.done := rfl
@[simp] theorem setFreg_err (i : FReg) (v : FieldElem) : (s.setFreg i v).err = s.err := rfl
@[simp] theorem setFreg_z (i : FReg) (v : FieldElem) : (s.setFreg i v).z = s.z := rfl
@[simp] theorem setFreg_errcode (i : FReg) (v : FieldElem) : (s.setFreg i v).errcode = s.errcode := rfl
@[simp] theorem setFreg_pend (i : FReg) (v : FieldElem) : (s.setFreg i v).pend = s.pend := rfl
@[simp] theorem setFreg_rst (i : FReg) (v : FieldElem) : (s.setFreg i v).rst = s.rst := rfl
@[simp] theorem setFreg_inputs (i : FReg) (v : FieldElem) : (s.setFreg i v).inputs = s.inputs := rfl
@[simp] theorem setFreg_replies (i : FReg) (v : FieldElem) : (s.setFreg i v).replies = s.replies := rfl
@[simp] theorem setFreg_draws (i : FReg) (v : FieldElem) : (s.setFreg i v).draws = s.draws := rfl

@[simp] theorem ackError_params : (s.ackError).params = s.params := rfl
@[simp] theorem ackError_F : (s.ackError).F = s.F := rfl
@[simp] theorem ackError_K : (s.ackError).K = s.K := rfl
@[simp] theorem ackError_ie : (s.ackError).ie = s.ie := rfl
@[simp] theorem ackError_busy : (s.ackError).busy = s.busy := rfl
@[simp] theorem ackError_done : (s.ackError).done = s.done := rfl
@[simp] theorem ackError_err : (s.ackError).err = false := rfl
@[simp] theorem ackError_z : (s.ackError).z = s.z := rfl
@[simp] theorem ackError_errcode : (s.ackError).errcode = 0 := rfl
@[simp] theorem ackError_pend : (s.ackError).pend = s.pend := rfl
@[simp] theorem ackError_rst : (s.ackError).rst = s.rst := rfl
@[simp] theorem ackError_inputs : (s.ackError).inputs = s.inputs := rfl
@[simp] theorem ackError_replies : (s.ackError).replies = s.replies := rfl
@[simp] theorem ackError_draws : (s.ackError).draws = s.draws := rfl

@[simp] theorem ackDone_params : (s.ackDone).params = s.params := rfl
@[simp] theorem ackDone_F : (s.ackDone).F = s.F := rfl
@[simp] theorem ackDone_K : (s.ackDone).K = s.K := rfl
@[simp] theorem ackDone_ie : (s.ackDone).ie = s.ie := rfl
@[simp] theorem ackDone_busy : (s.ackDone).busy = s.busy := rfl
@[simp] theorem ackDone_done : (s.ackDone).done = false := rfl
@[simp] theorem ackDone_err : (s.ackDone).err = s.err := rfl
@[simp] theorem ackDone_z : (s.ackDone).z = s.z := rfl
@[simp] theorem ackDone_errcode : (s.ackDone).errcode = s.errcode := rfl
@[simp] theorem ackDone_pend : (s.ackDone).pend = s.pend := rfl
@[simp] theorem ackDone_rst : (s.ackDone).rst = s.rst := rfl
@[simp] theorem ackDone_inputs : (s.ackDone).inputs = s.inputs := rfl
@[simp] theorem ackDone_replies : (s.ackDone).replies = s.replies := rfl
@[simp] theorem ackDone_draws : (s.ackDone).draws = s.draws := rfl

@[simp] theorem accepted_params (c : Instr) (r : Result) : (s.accepted c r).params = s.params := rfl
@[simp] theorem accepted_F (c : Instr) (r : Result) : (s.accepted c r).F = s.F := rfl
@[simp] theorem accepted_K (c : Instr) (r : Result) : (s.accepted c r).K = s.K := rfl
@[simp] theorem accepted_ie (c : Instr) (r : Result) : (s.accepted c r).ie = s.ie := rfl
@[simp] theorem accepted_busy (c : Instr) (r : Result) : (s.accepted c r).busy = true := rfl
@[simp] theorem accepted_done (c : Instr) (r : Result) : (s.accepted c r).done = false := rfl
@[simp] theorem accepted_err (c : Instr) (r : Result) : (s.accepted c r).err = s.err := rfl
@[simp] theorem accepted_z (c : Instr) (r : Result) : (s.accepted c r).z = s.z := rfl
@[simp] theorem accepted_errcode (c : Instr) (r : Result) : (s.accepted c r).errcode = s.errcode := rfl
@[simp] theorem accepted_pend (c : Instr) (r : Result) : (s.accepted c r).pend = some ⟨c, r⟩ := rfl
@[simp] theorem accepted_rst (c : Instr) (r : Result) : (s.accepted c r).rst = s.rst := rfl
@[simp] theorem accepted_inputs (c : Instr) (r : Result) : (s.accepted c r).inputs = s.inputs := rfl
@[simp] theorem accepted_replies (c : Instr) (r : Result) : (s.accepted c r).replies = s.replies := rfl
@[simp] theorem accepted_draws (c : Instr) (r : Result) : (s.accepted c r).draws = s.draws := rfl

@[simp] theorem retire_params : (s.retire).params = s.params := rfl
@[simp] theorem retire_F : (s.retire).F = s.F := rfl
@[simp] theorem retire_K : (s.retire).K = s.K := rfl
@[simp] theorem retire_ie : (s.retire).ie = s.ie := rfl
@[simp] theorem retire_busy : (s.retire).busy = false := rfl
@[simp] theorem retire_done : (s.retire).done = true := rfl
@[simp] theorem retire_err : (s.retire).err = s.err := rfl
@[simp] theorem retire_z : (s.retire).z = s.z := rfl
@[simp] theorem retire_errcode : (s.retire).errcode = s.errcode := rfl
@[simp] theorem retire_pend : (s.retire).pend = none := rfl
@[simp] theorem retire_rst : (s.retire).rst = s.rst := rfl
@[simp] theorem retire_inputs : (s.retire).inputs = s.inputs := rfl
@[simp] theorem retire_replies : (s.retire).replies = s.replies := rfl
@[simp] theorem retire_draws : (s.retire).draws = s.draws := rfl

@[simp] theorem schedule_params (es : List Event) : (s.schedule es).params = s.params := rfl
@[simp] theorem schedule_F (es : List Event) : (s.schedule es).F = s.F := rfl
@[simp] theorem schedule_K (es : List Event) : (s.schedule es).K = s.K := rfl
@[simp] theorem schedule_ie (es : List Event) : (s.schedule es).ie = s.ie := rfl
@[simp] theorem schedule_busy (es : List Event) : (s.schedule es).busy = s.busy := rfl
@[simp] theorem schedule_done (es : List Event) : (s.schedule es).done = s.done := rfl
@[simp] theorem schedule_err (es : List Event) : (s.schedule es).err = s.err := rfl
@[simp] theorem schedule_z (es : List Event) : (s.schedule es).z = s.z := rfl
@[simp] theorem schedule_errcode (es : List Event) : (s.schedule es).errcode = s.errcode := rfl
@[simp] theorem schedule_pend (es : List Event) : (s.schedule es).pend = s.pend := rfl
@[simp] theorem schedule_rst (es : List Event) : (s.schedule es).rst = s.rst := rfl
@[simp] theorem schedule_inputs (es : List Event) : (s.schedule es).inputs = es := rfl
@[simp] theorem schedule_replies (es : List Event) : (s.schedule es).replies = s.replies := rfl
@[simp] theorem schedule_draws (es : List Event) : (s.schedule es).draws = s.draws := rfl

@[simp] theorem writeCtrl_params (v : Word) : (s.writeCtrl v).params = s.params := rfl
@[simp] theorem writeCtrl_F (v : Word) : (s.writeCtrl v).F = s.F := rfl
@[simp] theorem writeCtrl_K (v : Word) : (s.writeCtrl v).K = s.K := rfl
@[simp] theorem writeCtrl_ie (v : Word) : (s.writeCtrl v).ie = v.getLsbD 0 := rfl
@[simp] theorem writeCtrl_busy (v : Word) : (s.writeCtrl v).busy = s.busy := rfl
@[simp] theorem writeCtrl_done (v : Word) : (s.writeCtrl v).done = s.done := rfl
@[simp] theorem writeCtrl_err (v : Word) : (s.writeCtrl v).err = s.err := rfl
@[simp] theorem writeCtrl_z (v : Word) : (s.writeCtrl v).z = s.z := rfl
@[simp] theorem writeCtrl_errcode (v : Word) : (s.writeCtrl v).errcode = s.errcode := rfl
@[simp] theorem writeCtrl_pend (v : Word) : (s.writeCtrl v).pend = s.pend := rfl
@[simp] theorem writeCtrl_rst (v : Word) : (s.writeCtrl v).rst = s.rst := rfl
@[simp] theorem writeCtrl_inputs (v : Word) : (s.writeCtrl v).inputs = s.inputs := rfl
@[simp] theorem writeCtrl_replies (v : Word) : (s.writeCtrl v).replies = s.replies := rfl
@[simp] theorem writeCtrl_draws (v : Word) : (s.writeCtrl v).draws = s.draws := rfl

@[simp] theorem toReset_params : (s.toReset).params = s.params := rfl
@[simp] theorem toReset_F : (s.toReset).F = Vector.replicate 16 0 := rfl
@[simp] theorem toReset_K : (s.toReset).K = 0 := rfl
@[simp] theorem toReset_ie : (s.toReset).ie = false := rfl
@[simp] theorem toReset_busy : (s.toReset).busy = false := rfl
@[simp] theorem toReset_done : (s.toReset).done = false := rfl
@[simp] theorem toReset_err : (s.toReset).err = false := rfl
@[simp] theorem toReset_z : (s.toReset).z = false := rfl
@[simp] theorem toReset_errcode : (s.toReset).errcode = 0 := rfl
@[simp] theorem toReset_pend : (s.toReset).pend = none := rfl
@[simp] theorem toReset_rst : (s.toReset).rst = s.rst := rfl
@[simp] theorem toReset_inputs : (s.toReset).inputs = s.inputs := rfl
@[simp] theorem toReset_replies : (s.toReset).replies = s.replies := rfl
@[simp] theorem toReset_draws : (s.toReset).draws = s.draws := rfl

@[simp] theorem resetOf_params (p : Params) : (State.resetOf p).params = p := rfl
@[simp] theorem resetOf_F (p : Params) : (State.resetOf p).F = Vector.replicate 16 0 := rfl
@[simp] theorem resetOf_K (p : Params) : (State.resetOf p).K = 0 := rfl
@[simp] theorem resetOf_ie (p : Params) : (State.resetOf p).ie = false := rfl
@[simp] theorem resetOf_busy (p : Params) : (State.resetOf p).busy = false := rfl
@[simp] theorem resetOf_done (p : Params) : (State.resetOf p).done = false := rfl
@[simp] theorem resetOf_err (p : Params) : (State.resetOf p).err = false := rfl
@[simp] theorem resetOf_z (p : Params) : (State.resetOf p).z = false := rfl
@[simp] theorem resetOf_errcode (p : Params) : (State.resetOf p).errcode = 0 := rfl
@[simp] theorem resetOf_pend (p : Params) : (State.resetOf p).pend = none := rfl
@[simp] theorem resetOf_rst (p : Params) : (State.resetOf p).rst = false := rfl
@[simp] theorem resetOf_inputs (p : Params) : (State.resetOf p).inputs = [] := rfl
@[simp] theorem resetOf_replies (p : Params) : (State.resetOf p).replies = [] := rfl
@[simp] theorem resetOf_draws (p : Params) : (State.resetOf p).draws = 0 := rfl

@[simp] theorem raise_params (c : ErrorCode) : (s.raise c).params = s.params := by unfold State.raise; split <;> rfl
@[simp] theorem raise_F (c : ErrorCode) : (s.raise c).F = s.F := by unfold State.raise; split <;> rfl
@[simp] theorem raise_K (c : ErrorCode) : (s.raise c).K = s.K := by unfold State.raise; split <;> rfl
@[simp] theorem raise_ie (c : ErrorCode) : (s.raise c).ie = s.ie := by unfold State.raise; split <;> rfl
@[simp] theorem raise_busy (c : ErrorCode) : (s.raise c).busy = s.busy := by unfold State.raise; split <;> rfl
@[simp] theorem raise_done (c : ErrorCode) : (s.raise c).done = s.done := by unfold State.raise; split <;> rfl
@[simp] theorem raise_z (c : ErrorCode) : (s.raise c).z = s.z := by unfold State.raise; split <;> rfl
@[simp] theorem raise_pend (c : ErrorCode) : (s.raise c).pend = s.pend := by unfold State.raise; split <;> rfl
@[simp] theorem raise_rst (c : ErrorCode) : (s.raise c).rst = s.rst := by unfold State.raise; split <;> rfl
@[simp] theorem raise_inputs (c : ErrorCode) : (s.raise c).inputs = s.inputs := by unfold State.raise; split <;> rfl
@[simp] theorem raise_replies (c : ErrorCode) : (s.raise c).replies = s.replies := by unfold State.raise; split <;> rfl
@[simp] theorem raise_draws (c : ErrorCode) : (s.raise c).draws = s.draws := by unfold State.raise; split <;> rfl
@[simp] theorem raise_err (c : ErrorCode) : (s.raise c).err = true := by unfold State.raise; split <;> simp_all
@[simp] theorem raise_errcode (c : ErrorCode) : (s.raise c).errcode = if s.err then s.errcode else c.code := by unfold State.raise; split <;> rfl

@[simp] theorem writeStatus_params (v : Word) : (s.writeStatus v).params = s.params := by unfold State.writeStatus; split <;> split <;> rfl
@[simp] theorem writeStatus_F (v : Word) : (s.writeStatus v).F = s.F := by unfold State.writeStatus; split <;> split <;> rfl
@[simp] theorem writeStatus_K (v : Word) : (s.writeStatus v).K = s.K := by unfold State.writeStatus; split <;> split <;> rfl
@[simp] theorem writeStatus_ie (v : Word) : (s.writeStatus v).ie = s.ie := by unfold State.writeStatus; split <;> split <;> rfl
@[simp] theorem writeStatus_busy (v : Word) : (s.writeStatus v).busy = s.busy := by unfold State.writeStatus; split <;> split <;> rfl
@[simp] theorem writeStatus_z (v : Word) : (s.writeStatus v).z = s.z := by unfold State.writeStatus; split <;> split <;> rfl
@[simp] theorem writeStatus_pend (v : Word) : (s.writeStatus v).pend = s.pend := by unfold State.writeStatus; split <;> split <;> rfl
@[simp] theorem writeStatus_rst (v : Word) : (s.writeStatus v).rst = s.rst := by unfold State.writeStatus; split <;> split <;> rfl
@[simp] theorem writeStatus_inputs (v : Word) : (s.writeStatus v).inputs = s.inputs := by unfold State.writeStatus; split <;> split <;> rfl
@[simp] theorem writeStatus_replies (v : Word) : (s.writeStatus v).replies = s.replies := by unfold State.writeStatus; split <;> split <;> rfl
@[simp] theorem writeStatus_draws (v : Word) : (s.writeStatus v).draws = s.draws := by unfold State.writeStatus; split <;> split <;> rfl
@[simp] theorem writeStatus_done (v : Word) : (s.writeStatus v).done = if v.getLsbD 1 then false else s.done := by unfold State.writeStatus; split <;> split <;> rfl
@[simp] theorem writeStatus_err (v : Word) : (s.writeStatus v).err = if v.getLsbD 2 then false else s.err := by unfold State.writeStatus; split <;> split <;> rfl
@[simp] theorem writeStatus_errcode (v : Word) : (s.writeStatus v).errcode = if v.getLsbD 2 then 0 else s.errcode := by unfold State.writeStatus; split <;> split <;> rfl

@[simp] theorem writeK_params (j : Fin 8) (v : Word) : (s.writeK j v).params = s.params := by unfold State.writeK; split <;> [simp; split <;> simp]
@[simp] theorem writeK_F (j : Fin 8) (v : Word) : (s.writeK j v).F = s.F := by unfold State.writeK; split <;> [simp; split <;> simp]
@[simp] theorem writeK_ie (j : Fin 8) (v : Word) : (s.writeK j v).ie = s.ie := by unfold State.writeK; split <;> [simp; split <;> simp]
@[simp] theorem writeK_busy (j : Fin 8) (v : Word) : (s.writeK j v).busy = s.busy := by unfold State.writeK; split <;> [simp; split <;> simp]
@[simp] theorem writeK_done (j : Fin 8) (v : Word) : (s.writeK j v).done = s.done := by unfold State.writeK; split <;> [simp; split <;> simp]
@[simp] theorem writeK_z (j : Fin 8) (v : Word) : (s.writeK j v).z = s.z := by unfold State.writeK; split <;> [simp; split <;> simp]
@[simp] theorem writeK_pend (j : Fin 8) (v : Word) : (s.writeK j v).pend = s.pend := by unfold State.writeK; split <;> [simp; split <;> simp]
@[simp] theorem writeK_rst (j : Fin 8) (v : Word) : (s.writeK j v).rst = s.rst := by unfold State.writeK; split <;> [simp; split <;> simp]
@[simp] theorem writeK_inputs (j : Fin 8) (v : Word) : (s.writeK j v).inputs = s.inputs := by unfold State.writeK; split <;> [simp; split <;> simp]
@[simp] theorem writeK_replies (j : Fin 8) (v : Word) : (s.writeK j v).replies = s.replies := by unfold State.writeK; split <;> [simp; split <;> simp]
@[simp] theorem writeK_draws (j : Fin 8) (v : Word) : (s.writeK j v).draws = s.draws := by unfold State.writeK; split <;> [simp; split <;> simp]

@[simp] theorem writeF_params (i : FReg) (j : Fin 8) (v : Word) : (s.writeF i j v).params = s.params := by unfold State.writeF; split <;> [simp; split <;> simp]
@[simp] theorem writeF_K (i : FReg) (j : Fin 8) (v : Word) : (s.writeF i j v).K = s.K := by unfold State.writeF; split <;> [simp; split <;> simp]
@[simp] theorem writeF_ie (i : FReg) (j : Fin 8) (v : Word) : (s.writeF i j v).ie = s.ie := by unfold State.writeF; split <;> [simp; split <;> simp]
@[simp] theorem writeF_busy (i : FReg) (j : Fin 8) (v : Word) : (s.writeF i j v).busy = s.busy := by unfold State.writeF; split <;> [simp; split <;> simp]
@[simp] theorem writeF_done (i : FReg) (j : Fin 8) (v : Word) : (s.writeF i j v).done = s.done := by unfold State.writeF; split <;> [simp; split <;> simp]
@[simp] theorem writeF_z (i : FReg) (j : Fin 8) (v : Word) : (s.writeF i j v).z = s.z := by unfold State.writeF; split <;> [simp; split <;> simp]
@[simp] theorem writeF_pend (i : FReg) (j : Fin 8) (v : Word) : (s.writeF i j v).pend = s.pend := by unfold State.writeF; split <;> [simp; split <;> simp]
@[simp] theorem writeF_rst (i : FReg) (j : Fin 8) (v : Word) : (s.writeF i j v).rst = s.rst := by unfold State.writeF; split <;> [simp; split <;> simp]
@[simp] theorem writeF_inputs (i : FReg) (j : Fin 8) (v : Word) : (s.writeF i j v).inputs = s.inputs := by unfold State.writeF; split <;> [simp; split <;> simp]
@[simp] theorem writeF_replies (i : FReg) (j : Fin 8) (v : Word) : (s.writeF i j v).replies = s.replies := by unfold State.writeF; split <;> [simp; split <;> simp]
@[simp] theorem writeF_draws (i : FReg) (j : Fin 8) (v : Word) : (s.writeF i j v).draws = s.draws := by unfold State.writeF; split <;> [simp; split <;> simp]

@[simp] theorem writeAll_params (ws : List (FReg × FieldElem)) : (s.writeAll ws).params = s.params := by
  unfold State.writeAll
  induction ws generalizing s with
  | nil => rfl
  | cons w ws ih => simp [ih]
@[simp] theorem writeAll_K (ws : List (FReg × FieldElem)) : (s.writeAll ws).K = s.K := by
  unfold State.writeAll
  induction ws generalizing s with
  | nil => rfl
  | cons w ws ih => simp [ih]
@[simp] theorem writeAll_ie (ws : List (FReg × FieldElem)) : (s.writeAll ws).ie = s.ie := by
  unfold State.writeAll
  induction ws generalizing s with
  | nil => rfl
  | cons w ws ih => simp [ih]
@[simp] theorem writeAll_busy (ws : List (FReg × FieldElem)) : (s.writeAll ws).busy = s.busy := by
  unfold State.writeAll
  induction ws generalizing s with
  | nil => rfl
  | cons w ws ih => simp [ih]
@[simp] theorem writeAll_done (ws : List (FReg × FieldElem)) : (s.writeAll ws).done = s.done := by
  unfold State.writeAll
  induction ws generalizing s with
  | nil => rfl
  | cons w ws ih => simp [ih]
@[simp] theorem writeAll_err (ws : List (FReg × FieldElem)) : (s.writeAll ws).err = s.err := by
  unfold State.writeAll
  induction ws generalizing s with
  | nil => rfl
  | cons w ws ih => simp [ih]
@[simp] theorem writeAll_z (ws : List (FReg × FieldElem)) : (s.writeAll ws).z = s.z := by
  unfold State.writeAll
  induction ws generalizing s with
  | nil => rfl
  | cons w ws ih => simp [ih]
@[simp] theorem writeAll_errcode (ws : List (FReg × FieldElem)) : (s.writeAll ws).errcode = s.errcode := by
  unfold State.writeAll
  induction ws generalizing s with
  | nil => rfl
  | cons w ws ih => simp [ih]
@[simp] theorem writeAll_pend (ws : List (FReg × FieldElem)) : (s.writeAll ws).pend = s.pend := by
  unfold State.writeAll
  induction ws generalizing s with
  | nil => rfl
  | cons w ws ih => simp [ih]
@[simp] theorem writeAll_rst (ws : List (FReg × FieldElem)) : (s.writeAll ws).rst = s.rst := by
  unfold State.writeAll
  induction ws generalizing s with
  | nil => rfl
  | cons w ws ih => simp [ih]
@[simp] theorem writeAll_inputs (ws : List (FReg × FieldElem)) : (s.writeAll ws).inputs = s.inputs := by
  unfold State.writeAll
  induction ws generalizing s with
  | nil => rfl
  | cons w ws ih => simp [ih]
@[simp] theorem writeAll_replies (ws : List (FReg × FieldElem)) : (s.writeAll ws).replies = s.replies := by
  unfold State.writeAll
  induction ws generalizing s with
  | nil => rfl
  | cons w ws ih => simp [ih]
@[simp] theorem writeAll_draws (ws : List (FReg × FieldElem)) : (s.writeAll ws).draws = s.draws := by
  unfold State.writeAll
  induction ws generalizing s with
  | nil => rfl
  | cons w ws ih => simp [ih]

@[simp] theorem applyResult_write (ws : List (FReg × FieldElem)) : s.applyResult (.write ws) = s.writeAll ws := rfl
@[simp] theorem applyResult_setZ (b : Bool) : s.applyResult (.setZ b) = { s with z := b } := rfl
@[simp] theorem applyResult_fail (c : ErrorCode) : s.applyResult (.fail c) = s.raise c := rfl
@[simp] theorem applyResult_params (r : Result) : (s.applyResult r).params = s.params := by cases r <;> simp [State.applyResult]
@[simp] theorem applyResult_K (r : Result) : (s.applyResult r).K = s.K := by cases r <;> simp [State.applyResult]
@[simp] theorem applyResult_ie (r : Result) : (s.applyResult r).ie = s.ie := by cases r <;> simp [State.applyResult]
@[simp] theorem applyResult_busy (r : Result) : (s.applyResult r).busy = s.busy := by cases r <;> simp [State.applyResult]
@[simp] theorem applyResult_done (r : Result) : (s.applyResult r).done = s.done := by cases r <;> simp [State.applyResult]
@[simp] theorem applyResult_pend (r : Result) : (s.applyResult r).pend = s.pend := by cases r <;> simp [State.applyResult]
@[simp] theorem applyResult_rst (r : Result) : (s.applyResult r).rst = s.rst := by cases r <;> simp [State.applyResult]
@[simp] theorem applyResult_inputs (r : Result) : (s.applyResult r).inputs = s.inputs := by cases r <;> simp [State.applyResult]
@[simp] theorem applyResult_replies (r : Result) : (s.applyResult r).replies = s.replies := by cases r <;> simp [State.applyResult]
@[simp] theorem applyResult_draws (r : Result) : (s.applyResult r).draws = s.draws := by cases r <;> simp [State.applyResult]

end Updates

section Registers

variable (s : State)

/-- Two states with the same register file read the same registers. -/
theorem freg_of_F {s t : State} (h : s.F = t.F) (i : FReg) : s.freg i = t.freg i := by simp [State.freg, h]

theorem freg_setFreg (i j : FReg) (v : FieldElem) : (s.setFreg i v).freg j = if i = j then v else s.freg j := by
  simp only [State.freg, State.setFreg, Fin.getElem_fin, Vector.getElem_set]
  by_cases h : i = j
  · simp [h]
  · simp [h, Fin.val_ne_of_ne h]

@[simp] theorem freg_setFreg_same (i : FReg) (v : FieldElem) : (s.setFreg i v).freg i = v := by simp [freg_setFreg]

theorem freg_setFreg_other {i j : FReg} (h : i ≠ j) (v : FieldElem) : (s.setFreg i v).freg j = s.freg j := by
  simp [freg_setFreg, h]

@[simp] theorem freg_raise (c : ErrorCode) (i : FReg) : (s.raise c).freg i = s.freg i := freg_of_F (by simp) i
@[simp] theorem freg_ackError (i : FReg) : (s.ackError).freg i = s.freg i := freg_of_F (by simp) i
@[simp] theorem freg_ackDone (i : FReg) : (s.ackDone).freg i = s.freg i := freg_of_F (by simp) i
@[simp] theorem freg_accepted (c : Instr) (r : Result) (i : FReg) : (s.accepted c r).freg i = s.freg i := freg_of_F (by simp) i
@[simp] theorem freg_retire (i : FReg) : (s.retire).freg i = s.freg i := freg_of_F (by simp) i
@[simp] theorem freg_schedule (es : List Event) (i : FReg) : (s.schedule es).freg i = s.freg i := freg_of_F (by simp) i
@[simp] theorem freg_writeCtrl (v : Word) (i : FReg) : (s.writeCtrl v).freg i = s.freg i := freg_of_F (by simp) i
@[simp] theorem freg_writeStatus (v : Word) (i : FReg) : (s.writeStatus v).freg i = s.freg i := freg_of_F (by simp) i
@[simp] theorem freg_writeK (j : Fin 8) (v : Word) (i : FReg) : (s.writeK j v).freg i = s.freg i := freg_of_F (by simp) i

@[simp] theorem freg_toReset (i : FReg) : s.toReset.freg i = 0 := by simp [State.freg]

@[simp] theorem freg_resetOf (p : Params) (i : FReg) : (State.resetOf p).freg i = 0 := by simp [State.freg]

/-- A register that no write of the list names keeps its value. -/
theorem freg_writeAll_of_notMem (ws : List (FReg × FieldElem)) (i : FReg) (h : i ∉ ws.map (·.1)) :
    (s.writeAll ws).freg i = s.freg i := by
  unfold State.writeAll
  induction ws generalizing s with
  | nil => rfl
  | cons w ws ih =>
    simp only [List.map_cons, List.mem_cons, not_or] at h
    rw [List.foldl_cons, ih _ h.2, freg_setFreg_other s (Ne.symm h.1)]

/-- A register that a list of writes changes is in the list, and holds the last value the list has for it. -/
theorem freg_writeAll_changed {i : FReg} (ws : List (FReg × FieldElem))
    (h : (s.writeAll ws).freg i ≠ s.freg i) : ∃ v, (i, v) ∈ ws ∧ (s.writeAll ws).freg i = v := by
  induction ws generalizing s with
  | nil => exact absurd rfl h
  | cons w ws ih =>
    have hw : s.writeAll (w :: ws) = (s.setFreg w.1 w.2).writeAll ws := rfl
    rw [hw] at h ⊢
    by_cases hc : ((s.setFreg w.1 w.2).writeAll ws).freg i = (s.setFreg w.1 w.2).freg i
    · by_cases hi : w.1 = i
      · exact ⟨w.2, by simp [← hi], by rw [hc, ← hi]; simp⟩
      · exact absurd (by rw [hc, freg_setFreg_other s hi]) h
    · obtain ⟨v, hm, hv⟩ := ih _ hc
      exact ⟨v, List.mem_cons_of_mem _ hm, hv⟩

/-- Where the indices of the writes are distinct (R121), each register named holds its value afterwards. -/
theorem freg_writeAll_of_mem (ws : List (FReg × FieldElem)) (nd : (ws.map (·.1)).Nodup) {i : FReg} {v : FieldElem}
    (h : (i, v) ∈ ws) : (s.writeAll ws).freg i = v := by
  unfold State.writeAll
  induction ws generalizing s with
  | nil => cases h
  | cons w ws ih =>
    simp only [List.map_cons, List.nodup_cons] at nd
    rw [List.foldl_cons]
    rcases List.mem_cons.1 h with rfl | h
    · exact (freg_writeAll_of_notMem (s.setFreg i v) ws i nd.1).trans (by simp)
    · exact ih _ nd.2 h

end Registers

end Sys2Proof.Machine
end

