-- ==== Sys2Proof/Laws/Ops.lean ====
section
/-! SUPPORT. For each shared operation, what it can do: the lemmas that later proofs cite instead of unfolding it. -/

namespace Sys2Proof.Machine

section Errors

variable (s : State) (c : ErrorCode)

theorem raise_of_err (h : s.err = true) : s.raise c = s := by simp [State.raise, h]

theorem raise_of_clear (h : s.err = false) : s.raise c = { s with err := true, errcode := c.code } := by
  simp [State.raise, h]

/-- Raising an error as one update: the first error is kept (R212). -/
theorem raise_eq : s.raise c = { s with err := true, errcode := if s.err then s.errcode else c.code } := by
  cases s
  rename_i err _ _ _ _ _ _ _
  cases err <;> rfl

theorem code_ne_zero : c.code ≠ 0 := by cases c <;> decide

theorem code_le : c.code.toNat ≤ 5 := by cases c <;> decide

end Errors

section Commands

variable {i : Instr} {s t : State}

/-- Every meaning is a CMD write of the command's own word with the result of its own `Exec` case. -/
theorem exec_eq_accept (i : Instr) (s : State) : exec i s = accept i (execCase i s) s := by cases i <;> rfl

/-- `Exec` reads nothing but the field registers, the scalar register and the parameters (R122). -/
theorem execCase_congr {s t : State} (hF : t.F = s.F) (hK : t.K = s.K) (hp : t.params = s.params) (i : Instr) :
    execCase i t = execCase i s := by
  have hf : ∀ r, t.freg r = s.freg r := freg_of_F hF
  have hq : ∀ r, t.preg r = s.preg r := fun r => by simp [State.preg, hf]
  cases i <;>
    simp only [execCase, copyResult, isZeroResult, addResult, mulxResult, mulResult, sqrResult, itpowResult, invResult,
      pisinfResult, pdblResult, paddResult, smulResult, hf, hq, hK, hp]

theorem exec_idle (h : s.busy = false) : exec i s = .next (s.accepted i (execCase i s)) := by
  simp [exec_eq_accept, accept, h]

theorem exec_busy (h : s.busy = true) : exec i s = .next (s.raise .cmdBusy) := by simp [exec_eq_accept, accept, h]

theorem exec_next (h : exec i s = .next t) :
    (s.busy = false ∧ t = s.accepted i (execCase i s)) ∨ (s.busy = true ∧ t = s.raise .cmdBusy) := by
  cases hb : s.busy
  · rw [exec_idle hb] at h; cases h; exact .inl ⟨rfl, rfl⟩
  · rw [exec_busy hb] at h; cases h; exact .inr ⟨rfl, rfl⟩

theorem rejectWord_eq (s : State) :
    rejectWord s = .next (s.raise (if s.busy then .cmdBusy else .illegalCmd)) := by
  unfold rejectWord; split <;> rfl

/-- Every way in which a CMD write can end (R120): an acceptance, or one of the two rejections in the order of R214. -/
theorem issueCommand_next {v : Word} (h : issueCommand v s = .next t) :
    (∃ i, decode v = .ok i ∧ s.busy = false ∧ t = s.accepted i (execCase i s)) ∨
      (s.busy = true ∧ t = s.raise .cmdBusy) ∨
      (s.busy = false ∧ (∃ r, decode v = .error r) ∧ t = s.raise .illegalCmd) := by
  unfold issueCommand at h
  split at h
  · rename_i i hi
    rcases exec_next h with ⟨hb, rfl⟩ | ⟨hb, rfl⟩
    · exact .inl ⟨i, hi, hb, rfl⟩
    · exact .inr (.inl ⟨hb, rfl⟩)
  · rename_i r hr
    rw [rejectWord_eq] at h; cases h
    cases hb : s.busy
    · exact .inr (.inr ⟨rfl, ⟨r, hr⟩, rfl⟩)
    · exact .inr (.inl ⟨rfl, rfl⟩)

theorem complete_of_pend {c : PendingCommand} (h : s.pend = some c) :
    complete s = .next (s.applyResult c.result).retire := by simp [complete, h]

theorem complete_next (h : complete s = .next t) :
    ∃ c, s.pend = some c ∧ t = (s.applyResult c.result).retire := by
  unfold complete at h
  split at h
  · rename_i c hc; cases h; exact ⟨c, hc, rfl⟩
  · cases h

theorem engineStep_idle (h : s.busy = false) : engineStep s = .next s := by simp [engineStep, h]

theorem engineStep_busy (h : s.busy = true) : engineStep s = complete s := by simp [engineStep, h]

theorem engineStep_next (h : engineStep s = .next t) :
    (s.busy = false ∧ t = s) ∨ (s.busy = true ∧ ∃ c, s.pend = some c ∧ t = (s.applyResult c.result).retire) := by
  cases hb : s.busy
  · rw [engineStep_idle hb] at h; cases h; exact .inl ⟨rfl, rfl⟩
  · rw [engineStep_busy hb] at h; exact .inr ⟨rfl, complete_next h⟩

end Commands

section Bus

variable {s t : State} {off : Nat} {v : Word}

/-- Every way in which a host read can end (R67, R70): with the word the target shows, or with a free draw. -/
theorem memRead_next (h : memRead off s = .next t) :
    ∃ w n, t = { s with replies := ⟨off, w⟩ :: s.replies, draws := n } ∧
      ((s.readTarget (target off) = some w ∧ n = s.draws) ∨
        (s.readTarget (target off) = none ∧ w = Config.busyRead s.draws ∧ n = s.draws + 1)) := by
  unfold memRead at h
  split at h <;> cases h
  · exact ⟨_, s.draws, rfl, .inl ⟨by assumption, rfl⟩⟩
  · exact ⟨_, _, rfl, .inr ⟨by assumption, rfl, rfl⟩⟩

/-- What a host write of `v` at `off` does to a state, case by case of the address map (R68). -/
inductive WriteCase (u t : State) (off : Nat) (v : Word) : Prop
  | ignored (hm : target off = .id ∨ target off = .reserved) (h : t = u)
  | ctrl (hm : target off = .ctrl) (h : t = u.writeCtrl v)
  | status (hm : target off = .status) (h : t = u.writeStatus v)
  | writeK (j : Fin 8) (hm : target off = .kWord j) (h : t = u.writeK j v)
  | writeF (i : FReg) (j : Fin 8) (hm : target off = .fWord i j) (h : t = u.writeF i j v)
  | issued (i : Instr) (hm : target off = .cmd) (hd : decode v = .ok i) (hb : u.busy = false)
      (h : t = u.accepted i (execCase i u))
  | turnedAway (hm : target off = .cmd) (hb : u.busy = true) (h : t = u.raise .cmdBusy)
  | illegal (hm : target off = .cmd) (hb : u.busy = false) (hd : ∃ r, decode v = .error r)
      (h : t = u.raise .illegalCmd)

/-- Every way in which a host write can end. -/
theorem memWrite_next (h : memWrite off v s = .next t) : WriteCase s t off v := by
  unfold memWrite at h
  split at h <;> rename_i hm
  · cases h; exact .ignored (.inl hm) rfl
  · cases h; exact .ctrl hm rfl
  · cases h; exact .status hm rfl
  · rcases issueCommand_next h with ⟨i, hd, hb, ht⟩ | ⟨hb, ht⟩ | ⟨hb, hd, ht⟩
    · exact .issued i hm hd hb ht
    · exact .turnedAway hm hb ht
    · exact .illegal hm hb hd ht
  · cases h; exact .writeK _ hm rfl
  · cases h; exact .writeF _ _ hm rfl
  · cases h; exact .ignored (.inr hm) rfl

theorem portRefusal_none {z : AccessSize} :
    portRefusal z off s = none ↔ s.rst = false ∧ z = .word ∧ off < 0x1000 ∧ off % 4 = 0 := by
  unfold portRefusal; split <;> [simp_all; split <;> [simp_all; split <;> [simp_all; split <;> simp_all]]]

theorem hostAccess_next {z : AccessSize} {f : State → Answer} (h : hostAccess z off f s = .next t) :
    s.rst = false ∧ z = .word ∧ off < 0x1000 ∧ off % 4 = 0 ∧ f s = .next t := by
  unfold hostAccess at h
  split at h
  · cases h
  · rename_i hn; obtain ⟨a, b, c, d⟩ := portRefusal_none.1 hn; exact ⟨a, b, c, d, h⟩

theorem hostAccess_ok {z : AccessSize} {f : State → Answer} (hr : s.rst = false) (hz : z = .word) (ho : off < 0x1000)
    (ha : off % 4 = 0) : hostAccess z off f s = f s := by
  simp [hostAccess, portRefusal_none.2 ⟨hr, hz, ho, ha⟩]

end Bus

section Step

variable {s t : State}

theorem step_nil (h : s.inputs = []) : step s = engineStep s := by simp [step, h]

theorem step_cons {e : Event} {es : List Event} (h : s.inputs = e :: es) : step s = takeEvent e (s.schedule es) := by
  simp [step, h]

/-- A whole-word write inside the window, the reset input being released, is a `memWrite`. -/
theorem step_write {off : Nat} {v : Word} {es : List Event} (hr : s.rst = false)
    (hi : s.inputs = .write .word off v :: es) (ho : off < 0x1000) (ha : off % 4 = 0) :
    step s = memWrite off v (s.schedule es) := by
  rw [step_cons hi, takeEvent, hostAccess_ok (by simpa using hr) rfl ho ha]

/-- A whole-word read inside the window, the reset input being released, is a `memRead`. -/
theorem step_read {off : Nat} {es : List Event} (hr : s.rst = false)
    (hi : s.inputs = .read .word off :: es) (ho : off < 0x1000) (ha : off % 4 = 0) :
    step s = memRead off (s.schedule es) := by
  rw [step_cons hi, takeEvent, hostAccess_ok (by simpa using hr) rfl ho ha]

theorem step_engine {es : List Event} (hi : s.inputs = .engine :: es) : step s = engineStep (s.schedule es) := by
  rw [step_cons hi, takeEvent]

theorem driveReset_next {b : Bool} (h : driveReset b s = .next t) :
    (b = true ∧ t = { s.toReset with rst := true }) ∨ (b = false ∧ t = { s with rst := false }) := by
  unfold driveReset at h
  split at h <;> cases h
  · exact .inl ⟨by assumption, rfl⟩
  · exact .inr ⟨by simpa using ‹¬ b = true›, rfl⟩

/-- Every way in which one entry of the schedule can lead to a next state. `u` is the state at the entry. -/
inductive EventCase (u t : State) : Event → Prop
  | read (off : Nat) (w : Word) (n : Nat) (hr : u.rst = false) (ho : off < 0x1000) (ha : off % 4 = 0)
      (h : t = { u with replies := ⟨off, w⟩ :: u.replies, draws := n })
      (hw : (u.readTarget (target off) = some w ∧ n = u.draws) ∨
        (u.readTarget (target off) = none ∧ w = Config.busyRead u.draws ∧ n = u.draws + 1)) :
      EventCase u t (.read .word off)
  | write (off : Nat) (v : Word) (hr : u.rst = false) (ho : off < 0x1000) (ha : off % 4 = 0)
      (h : WriteCase u t off v) : EventCase u t (.write .word off v)
  | passed (hb : u.busy = false) (h : t = u) : EventCase u t .engine
  | completed (c : PendingCommand) (hb : u.busy = true) (hp : u.pend = some c)
      (h : t = (u.applyResult c.result).retire) : EventCase u t .engine
  | asserted (h : t = { u.toReset with rst := true }) : EventCase u t (.rst true)
  | released (h : t = { u with rst := false }) : EventCase u t (.rst false)

theorem takeEvent_next {e : Event} {u : State} (h : takeEvent e u = .next t) : EventCase u t e := by
  cases e with
  | read z off =>
    obtain ⟨hr, rfl, ho, ha, h⟩ := hostAccess_next h
    obtain ⟨w, n, rfl, hw⟩ := memRead_next h
    exact .read off w n hr ho ha rfl hw
  | write z off v =>
    obtain ⟨hr, rfl, ho, ha, h⟩ := hostAccess_next h
    exact .write off v hr ho ha (memWrite_next h)
  | engine =>
    rcases engineStep_next h with ⟨hb, h⟩ | ⟨hb, c, hp, h⟩
    · exact .passed hb h
    · exact .completed c hb hp h
  | rst b =>
    rcases driveReset_next h with ⟨rfl, ht⟩ | ⟨rfl, ht⟩
    · exact .asserted ht
    · exact .released ht

/-- Every way in which a step can lead to a next state: the engine's own step at the end of the schedule, or the next
entry of the schedule. -/
theorem step_next (h : step s = .next t) :
    (s.inputs = [] ∧ EventCase s t .engine) ∨
      ∃ e es, s.inputs = e :: es ∧ EventCase (s.schedule es) t e := by
  cases hi : s.inputs with
  | nil => rw [step_nil hi] at h; exact .inl ⟨rfl, takeEvent_next (e := .engine) h⟩
  | cons e es => rw [step_cons hi] at h; exact .inr ⟨e, es, rfl, takeEvent_next h⟩

theorem run_succ_of_next (M : Host.Core) (n : Nat) {s t : M.State} (h : M.step s = .next t) :
    M.run (n + 1) s = M.run n t := by rw [Host.Core.run, h]

theorem run_succ_of_fault (M : Host.Core) (n : Nat) {s : M.State} {r : M.Fault} (h : M.step s = .fault r) :
    M.run (n + 1) s = .fault r := by rw [Host.Core.run, h]

theorem run_succ_of_refused (M : Host.Core) (n : Nat) {s : M.State} {r : M.Refusal} (h : M.step s = .refused r) :
    M.run (n + 1) s = .refused r := by rw [Host.Core.run, h]

/-- A run whose first step leads to `t` goes on from `t`. -/
theorem core_run_next (n : Nat) (h : step s = .next t) :
    Sys2Proof.core.run (n + 1) s = Sys2Proof.core.run n t := run_succ_of_next Sys2Proof.core n h

theorem core_run_fault (n : Nat) {r : Fault} (h : step s = .fault r) :
    Sys2Proof.core.run (n + 1) s = .fault r := run_succ_of_fault Sys2Proof.core n h

theorem core_run_refused (n : Nat) {r : Refusal} (h : step s = .refused r) :
    Sys2Proof.core.run (n + 1) s = .refused r := run_succ_of_refused Sys2Proof.core n h

theorem core_run_zero (s : State) : Sys2Proof.core.run 0 s = .next s := rfl

end Step

end Sys2Proof.Machine
end

