-- ==== Sys2Proof/Laws/Bus.lean ====
section
/-! SUPPORT. The address map in both directions, and what the word views and word updates of a register hold bit by bit. -/

namespace Sys2Proof.Machine

section Map

theorem target_fOffset (i : FReg) (j : Fin 8) : target (0x100 + 0x20 * i.val + 4 * j.val) = .fWord i j := by
  revert i j; decide

theorem target_kOffset (j : Fin 8) : target (0x040 + 4 * j.val) = .kWord j := by revert j; decide

theorem target_eq_kWord {off : Nat} {j : Fin 8} (ha : off % 4 = 0) (h : target off = .kWord j) :
    off = 0x040 + 4 * j.val := by
  unfold target at h
  repeat' split at h
  all_goals cases h
  simp only [Fin.ofNat]
  omega

theorem target_eq_fWord {off : Nat} {i : FReg} {j : Fin 8} (ha : off % 4 = 0) (h : target off = .fWord i j) :
    off = 0x100 + 0x20 * i.val + 4 * j.val := by
  unfold target at h
  repeat' split at h
  all_goals cases h
  simp only [Fin.ofNat]
  omega

theorem target_eq_ctrl {off : Nat} (h : target off = .ctrl) : off = 0x004 := by
  unfold target at h; repeat' split at h
  all_goals first | assumption | cases h

theorem target_eq_status {off : Nat} (h : target off = .status) : off = 0x008 := by
  unfold target at h; repeat' split at h
  all_goals first | assumption | cases h

theorem target_eq_cmd {off : Nat} (h : target off = .cmd) : off = 0x00C := by
  unfold target at h; repeat' split at h
  all_goals first | assumption | cases h

end Map

section Words

theorem getLsbD_wordAt_view (x : BitVec 240) (j : Fin 8) (n : Nat) (hn : n < 32) :
    (wordAt (view x) j).getLsbD n = x.getLsbD (32 * j.val + n) := by
  have : 32 * j.val + n < 256 := by omega
  simp [wordAt, view, hn, this]

theorem getLsbD_putWord (x : BitVec 256) (j : Fin 8) (w : Word) (n : Nat) (hn : n < 256) :
    (putWord x j w).getLsbD n =
      if 32 * j.val ≤ n ∧ n < 32 * j.val + 32 then w.getLsbD (n - 32 * j.val) else x.getLsbD n := by
  have hones : ∀ m, (0xFFFFFFFF#256).getLsbD m = decide (m < 32) := fun m => by
    have : (0xFFFFFFFF : Nat) = 2 ^ 32 - 1 := rfl
    rw [BitVec.getLsbD_ofNat, this, Nat.testBit_two_pow_sub_one]
    by_cases h : m < 32
    · simp [h]; omega
    · simp [h]
  simp only [putWord, BitVec.getLsbD_or, BitVec.getLsbD_and, BitVec.getLsbD_not, BitVec.getLsbD_shiftLeft, hones,
    BitVec.getLsbD_setWidth, hn, decide_true, Bool.true_and]
  by_cases h1 : 32 * j.val ≤ n
  · by_cases h2 : n < 32 * j.val + 32
    · simp [h1, h2, show ¬ n < 32 * j.val by omega, show n - 32 * j.val < 32 by omega, show n - 32 * j.val < 256 by omega]
    · simp [h1, h2, show ¬ n < 32 * j.val by omega, show ¬ n - 32 * j.val < 32 by omega,
        BitVec.getLsbD_of_ge w (n - 32 * j.val) (by omega)]
  · simp [h1, show n < 32 * j.val by omega]

/-- A 256-bit view has a bit at or above `M` exactly when its shift by `M` is not 0 (R68). -/
theorem shiftRight_ne_zero (x : BitVec 256) (M : Nat) :
    x >>> M ≠ 0 ↔ ∃ n, M ≤ n ∧ n < 256 ∧ x.getLsbD n = true := by
  constructor
  · intro h
    by_contra hc
    push Not at hc
    apply h
    apply BitVec.eq_of_getLsbD_eq
    intro i hi
    rw [BitVec.getLsbD_ushiftRight]
    by_cases h2 : M + i < 256
    · simpa using hc (M + i) (by omega) h2
    · simp [BitVec.getLsbD_of_ge x (M + i) (by omega)]
  · rintro ⟨n, h1, h2, h3⟩ h0
    have := congrArg (fun y => y.getLsbD (n - M)) h0
    simp [BitVec.getLsbD_ushiftRight, Nat.add_sub_cancel' h1, h3] at this

end Words

end Sys2Proof.Machine
end

