-- ==== Sys2Proof/Laws/Poly.lean ====
section
/-! SUPPORT. The polynomial primitives of R18 as operations of (ZMod 2)[X]: what each computes, once, in ring terms. -/

namespace Sys2Proof.Machine

open Polynomial

/-- The polynomial over GF(2) that a bit vector codes (R16). -/
noncomputable def toPoly (a : Nat) : (ZMod 2)[X] :=
  ∑ i ∈ Finset.range (a.log2 + 1), if a.testBit i then X ^ i else 0

theorem testBit_of_log2_lt {a i : Nat} (h : a.log2 < i) : a.testBit i = false :=
  Nat.testBit_lt_two_pow (Nat.lt_log2_self.trans_le (Nat.pow_le_pow_right (by decide) h))

@[simp] theorem coeff_toPoly (a i : Nat) : (toPoly a).coeff i = if a.testBit i then 1 else 0 := by
  unfold toPoly
  rw [finsetSum_coeff]
  by_cases hi : i < a.log2 + 1
  · rw [Finset.sum_eq_single i]
    · split <;> simp
    · intro j _ hj
      split <;> simp [coeff_X_pow, hj.symm]
    · intro h; exact absurd (Finset.mem_range.2 hi) h
  · rw [testBit_of_log2_lt (by omega)]
    apply Finset.sum_eq_zero
    intro j hj
    have : j ≠ i := by have := Finset.mem_range.1 hj; omega
    split <;> simp [coeff_X_pow, this.symm]

theorem toPoly_injective : Function.Injective toPoly := by
  intro a b h
  apply Nat.eq_of_testBit_eq
  intro i
  have := congrArg (fun q => q.coeff i) h
  simp only [coeff_toPoly] at this
  cases ha : a.testBit i <;> cases hb : b.testBit i <;> simp_all

@[simp] theorem toPoly_zero : toPoly 0 = 0 := by ext i; simp

@[simp] theorem toPoly_one : toPoly 1 = 1 := by
  ext i
  rw [coeff_toPoly, coeff_one, ← Nat.pow_zero 2, Nat.testBit_two_pow]
  simp [eq_comm]

@[simp] theorem toPoly_xor (a b : Nat) : toPoly (a ^^^ b) = toPoly a + toPoly b := by
  ext i
  simp only [coeff_toPoly, Nat.testBit_xor, coeff_add]
  cases a.testBit i <;> cases b.testBit i <;> decide

@[simp] theorem toPoly_shiftLeft (a n : Nat) : toPoly (a <<< n) = toPoly a * X ^ n := by
  ext i
  simp only [coeff_toPoly, Nat.testBit_shiftLeft, coeff_mul_X_pow']
  by_cases h : n ≤ i <;> simp [h]

@[simp] theorem toPoly_two_pow (n : Nat) : toPoly (2 ^ n) = X ^ n := by
  rw [← Nat.one_shiftLeft, toPoly_shiftLeft, toPoly_one, one_mul]

theorem toPoly_eq_zero {a : Nat} : toPoly a = 0 ↔ a = 0 :=
  ⟨fun h => toPoly_injective (h.trans toPoly_zero.symm), fun h => by simp [h]⟩

/-- Every polynomial over GF(2) is coded by a bit vector. -/
theorem toPoly_surjective : Function.Surjective toPoly := by
  intro q
  induction q using Polynomial.induction_on' with
  | add q r hq hr =>
    obtain ⟨a, rfl⟩ := hq
    obtain ⟨b, rfl⟩ := hr
    exact ⟨a ^^^ b, toPoly_xor a b⟩
  | monomial n c =>
    rcases (by revert c; decide : ∀ c : ZMod 2, c = 0 ∨ c = 1) c with rfl | rfl
    · exact ⟨0, by simp⟩
    · exact ⟨2 ^ n, by rw [toPoly_two_pow, X_pow_eq_monomial]⟩

theorem degree_toPoly_lt {a n : Nat} : (toPoly a).degree < n ↔ a < 2 ^ n := by
  rw [Polynomial.degree_lt_iff_coeff_zero]
  constructor
  · intro h
    apply Nat.lt_pow_two_of_testBit
    intro i hi
    have := h i hi
    rw [coeff_toPoly] at this
    by_contra hb
    simp [hb] at this
  · intro h i hi
    rw [coeff_toPoly, Nat.testBit_lt_two_pow (h.trans_le (Nat.pow_le_pow_right (by decide) hi))]
    simp

theorem degree_toPoly {a : Nat} (h : a ≠ 0) : (toPoly a).degree = a.log2 := by
  apply le_antisymm
  · have := degree_toPoly_lt.2 (Nat.lt_log2_self (n := a))
    exact Order.le_of_lt_succ (by simpa using this : (toPoly a).degree < ((a.log2 : WithBot ℕ) + 1))
  · by_contra hlt
    exact absurd (degree_toPoly_lt.1 (not_le.1 hlt)) (not_lt.2 (Nat.log2_self_le h))

/-- The low `n + 1` bits are the low `n` bits with bit `n` added. -/
theorem mod_two_pow_succ_xor (b n : Nat) : b % 2 ^ (n + 1) = b % 2 ^ n ^^^ (if b.testBit n then 2 ^ n else 0) := by
  apply Nat.eq_of_testBit_eq
  intro i
  have hif : (if b.testBit n then 2 ^ n else 0).testBit i = (b.testBit n && decide (n = i)) := by
    cases b.testBit n <;> simp [Nat.testBit_two_pow]
  rw [Nat.testBit_xor, hif, Nat.testBit_mod_two_pow, Nat.testBit_mod_two_pow]
  rcases Nat.lt_trichotomy i n with h | h | h
  · simp [h, Nat.lt_succ_of_lt h, Nat.ne_of_gt h]
  · subst h; simp
  · simp [show ¬ i < n by omega, show ¬ i < n + 1 by omega, show n ≠ i by omega]

theorem toPoly_clmulBits (a b n : Nat) : toPoly (clmulBits a b n) = toPoly a * toPoly (b % 2 ^ n) := by
  induction n with
  | zero => simp [clmulBits, Nat.mod_one]
  | succ n ih =>
    rw [clmulBits, toPoly_xor, ih, mod_two_pow_succ_xor, toPoly_xor, mul_add]
    congr 1
    split <;> simp

/-- `clmul` is the product of (ZMod 2)[X]. -/
theorem toPoly_clmul (a b : Nat) : toPoly (clmul a b) = toPoly a * toPoly b := by
  rw [clmul, toPoly_clmulBits, Nat.mod_eq_of_lt Nat.lt_log2_self]

theorem toPoly_spreadBits (a n : Nat) : toPoly (spreadBits a n) = toPoly (a % 2 ^ n) ^ 2 := by
  induction n with
  | zero => simp [spreadBits, Nat.mod_one]
  | succ n ih =>
    rw [spreadBits, toPoly_xor, ih, mod_two_pow_succ_xor, toPoly_xor, add_pow_char]
    congr 1
    split <;> simp [pow_mul']

/-- `spread` is squaring in (ZMod 2)[X] (R18). -/
theorem toPoly_spread (a : Nat) : toPoly (spread a) = toPoly a ^ 2 := by
  rw [spread, toPoly_spreadBits, Nat.mod_eq_of_lt Nat.lt_log2_self]

/-- The elimination keeps the value modulo `f` and clears its bits from `deg f` up. -/
theorem eliminate_spec (f n v : Nat) (hf : f ≠ 0) (hv : v < 2 ^ (f.log2 + n)) :
    eliminate f n v < 2 ^ f.log2 ∧ toPoly f ∣ toPoly (eliminate f n v) - toPoly v := by
  induction n generalizing v with
  | zero => exact ⟨hv, by simp [eliminate]⟩
  | succ n ih =>
    have key : (if v.testBit (f.log2 + n) then v ^^^ (f <<< n) else v) < 2 ^ (f.log2 + n) := by
      have hshift : (f <<< n).testBit (f.log2 + n) = true := by
        rw [Nat.testBit_shiftLeft]
        have : f.testBit f.log2 = true := by
          by_contra hb
          have h1 : f < 2 ^ f.log2 := by
            apply Nat.lt_pow_two_of_testBit
            intro i hi
            rcases hi.lt_or_eq with h | h
            · exact testBit_of_log2_lt h
            · rw [← h]; simpa using hb
          exact absurd (Nat.log2_self_le hf) (not_le.2 h1)
        simp [this]
      have hlt : f <<< n < 2 ^ (f.log2 + (n + 1)) := by
        rw [Nat.shiftLeft_eq, ← add_assoc, add_right_comm, pow_add 2 (f.log2 + 1)]
        exact Nat.mul_lt_mul_of_pos_right Nat.lt_log2_self (by positivity)
      apply Nat.lt_pow_two_of_testBit
      intro i hi
      split
      · rename_i hb
        rcases hi.lt_or_eq with h | h
        · rw [Nat.testBit_xor, Nat.testBit_lt_two_pow (hv.trans_le (Nat.pow_le_pow_right (by decide) h)),
            Nat.testBit_lt_two_pow (hlt.trans_le (Nat.pow_le_pow_right (by decide) h))]
          rfl
        · subst h; rw [Nat.testBit_xor, hb, hshift]; rfl
      · rename_i hb
        rcases hi.lt_or_eq with h | h
        · exact Nat.testBit_lt_two_pow (hv.trans_le (Nat.pow_le_pow_right (by decide) h))
        · subst h; simpa using hb
    obtain ⟨h1, h2⟩ := ih _ key
    refine ⟨h1, ?_⟩
    have h3 : toPoly f ∣ toPoly (if v.testBit (f.log2 + n) then v ^^^ (f <<< n) else v) - toPoly v := by
      split
      · simp
      · simp
    have := dvd_add h2 h3
    rwa [sub_add_sub_cancel] at this

/-- `polymod` is the remainder of (ZMod 2)[X] (R18). -/
theorem toPoly_polymod (v f : Nat) (hf : f ≠ 0) : toPoly (polymod v f) = toPoly v % toPoly f := by
  have hv : v < 2 ^ (f.log2 + (v.log2 + 1 - f.log2)) :=
    Nat.lt_log2_self.trans_le (Nat.pow_le_pow_right (by decide) (by omega))
  obtain ⟨h1, h2⟩ := eliminate_spec f _ v hf hv
  have hF : toPoly f ≠ 0 := fun h => hf (toPoly_eq_zero.1 h)
  have hdeg : (toPoly (polymod v f)).degree < (toPoly f).degree := by
    rw [degree_toPoly hf]; exact degree_toPoly_lt.2 h1
  rw [← (Polynomial.mod_eq_self_iff hF).2 hdeg]
  exact Polynomial.mod_eq_of_dvd_sub h2

/-- `polymod` answers a polynomial of degree below that of `f`. -/
theorem polymod_lt (v f : Nat) (hf : f ≠ 0) : polymod v f < 2 ^ f.log2 :=
  (eliminate_spec f _ v hf (Nat.lt_log2_self.trans_le (Nat.pow_le_pow_right (by decide) (by omega)))).1

end Sys2Proof.Machine
end

