-- ==== Sys2Proof/Laws/Gf.lean ====
section
/-! SUPPORT. The field operations as operations of the ring (ZMod 2)[X] / f: what each computes, once, in ring terms. -/

namespace Sys2Proof.Machine

open Polynomial

variable {p : Params}

section Bounds

theorem low_lt (p : Params) (a : FieldElem) : p.low a < 2 ^ p.M := Nat.mod_lt _ (by positivity)

theorem low_of_canonical {a : FieldElem} (h : p.Canonical a) : p.low a = a.toNat := Nat.mod_eq_of_lt h

theorem toElem_toNat {u : Nat} (h : u < 2 ^ 240) : (toElem u).toNat = u := by
  rw [toElem, BitVec.toNat_ofNat, Nat.mod_eq_of_lt h]

theorem pow_M_le (h : p.Sized) : 2 ^ p.M ≤ 2 ^ 240 := Nat.pow_le_pow_right (by decide) h.degree.2

theorem toElem_canonical {u : Nat} (h : u < 2 ^ p.M) : p.Canonical (toElem u) :=
  lt_of_le_of_lt (by simp only [toElem, BitVec.toNat_ofNat]; exact Nat.mod_le _ _) h

theorem testBit_rpoly (h : p.LowPartFits) (i : Nat) (hi : p.M ≤ i) : p.rpoly.testBit i = decide (p.M = i) := by
  rw [Params.rpoly, Nat.testBit_xor, Nat.testBit_two_pow,
    Nat.testBit_lt_two_pow (lt_of_lt_of_le h (Nat.pow_le_pow_right (by decide) hi))]
  simp

theorem rpoly_ne_zero (h : p.LowPartFits) : p.rpoly ≠ 0 := by
  intro h0
  have := testBit_rpoly h p.M le_rfl
  simp [h0] at this

theorem log2_rpoly (h : p.LowPartFits) : p.rpoly.log2 = p.M := by
  apply le_antisymm
  · rw [← Nat.lt_succ_iff, Nat.log2_lt (rpoly_ne_zero h)]
    apply Nat.lt_pow_two_of_testBit
    intro i hi
    rw [testBit_rpoly h i (by omega)]
    simp; omega
  · rw [Nat.le_log2 (rpoly_ne_zero h)]
    exact Nat.ge_two_pow_of_testBit (by rw [testBit_rpoly h _ le_rfl]; simp)

theorem polymod_rpoly_lt (h : p.LowPartFits) (v : Nat) : polymod v p.rpoly < 2 ^ p.M := by
  have := polymod_lt v p.rpoly (rpoly_ne_zero h)
  rwa [log2_rpoly h] at this

theorem fmul_toNat (h : p.Sized) (a b : FieldElem) :
    (fmul p a b).toNat = polymod (clmul (p.low a) (p.low b)) p.rpoly :=
  toElem_toNat ((polymod_rpoly_lt h.low _).trans_le (pow_M_le h))

theorem fsqr_toNat (h : p.Sized) (a : FieldElem) : (fsqr p a).toNat = polymod (spread (p.low a)) p.rpoly :=
  toElem_toNat ((polymod_rpoly_lt h.low _).trans_le (pow_M_le h))

theorem fadd_canonical {a b : FieldElem} (ha : p.Canonical a) (hb : p.Canonical b) : p.Canonical (fadd a b) := by
  unfold Params.Canonical fadd
  rw [BitVec.toNat_xor]
  exact Nat.xor_lt_two_pow ha hb

theorem fmul_canonical (h : p.LowPartFits) (a b : FieldElem) : p.Canonical (fmul p a b) :=
  toElem_canonical (polymod_rpoly_lt h _)

theorem fsqr_canonical (h : p.LowPartFits) (a : FieldElem) : p.Canonical (fsqr p a) :=
  toElem_canonical (polymod_rpoly_lt h _)

theorem zero_canonical (p : Params) : p.Canonical 0 := by simp [Params.Canonical]

theorem one_canonical (h : p.DegreeInRange) : p.Canonical 1 := by
  have : (2 : Nat) ^ 1 ≤ 2 ^ p.M := Nat.pow_le_pow_right (by decide) (by omega)
  exact lt_of_lt_of_le (by decide) this

theorem fpow2_canonical (h : p.LowPartFits) {a : FieldElem} (ha : p.Canonical a) (j : Nat) :
    p.Canonical (fpow2 p a j) := by
  cases j with
  | zero => exact ha
  | succ j => exact fsqr_canonical h _

theorem fexpBits_canonical (h : p.Sized) (a : FieldElem) (n e : Nat) : p.Canonical (fexpBits p a n e) := by
  cases n with
  | zero => exact one_canonical h.degree
  | succ n =>
    unfold fexpBits
    split
    · exact fmul_canonical h.low _ _
    · exact fsqr_canonical h.low _

theorem finv_canonical (h : p.Sized) (a : FieldElem) : p.Canonical (finv p a) := fexpBits_canonical h _ _ _

theorem fmulx_canonical (h : p.LowPartFits) (a : FieldElem) : p.Canonical (fmulx p a) := by
  have hs : (a.toNat <<< 1) % 2 ^ p.M < 2 ^ p.M := Nat.mod_lt _ (by positivity)
  unfold fmulx
  split
  · exact toElem_canonical (Nat.xor_lt_two_pow hs h)
  · exact toElem_canonical hs

end Bounds

section Ring

/-- The class of a field register's content in (ZMod 2)[X] / f. -/
noncomputable def elem (p : Params) (a : FieldElem) : AdjoinRoot (toPoly p.rpoly) :=
  AdjoinRoot.mk _ (toPoly (p.low a))

theorem mk_polymod (h : p.LowPartFits) (v : Nat) :
    AdjoinRoot.mk (toPoly p.rpoly) (toPoly (polymod v p.rpoly)) = AdjoinRoot.mk _ (toPoly v) := by
  rw [toPoly_polymod _ _ (rpoly_ne_zero h), AdjoinRoot.mk_eq_mk]
  exact ⟨-(toPoly v / toPoly p.rpoly), by rw [EuclideanDomain.mod_eq_sub_mul_div]; ring⟩

theorem low_toElem (h : p.Sized) {u : Nat} (hu : u < 2 ^ p.M) : p.low (toElem u) = u := by
  rw [low_of_canonical (toElem_canonical hu), toElem_toNat (hu.trans_le (pow_M_le h))]

@[simp] theorem elem_zero (p : Params) : elem p 0#240 = 0 := by simp [elem, Params.low]

theorem elem_one (h : p.Sized) : elem p 1 = 1 := by
  have : p.low 1 = 1 := by rw [low_of_canonical (one_canonical h.degree)]; rfl
  rw [elem, this, toPoly_one, map_one]

theorem elem_fadd (p : Params) (a b : FieldElem) : elem p (fadd a b) = elem p a + elem p b := by
  have : p.low (fadd a b) = p.low a ^^^ p.low b := by
    simp only [Params.low, fadd, BitVec.toNat_xor]
    exact Nat.xor_mod_two_pow
  rw [elem, this, toPoly_xor, map_add]; rfl

theorem elem_fmul (h : p.Sized) (a b : FieldElem) : elem p (fmul p a b) = elem p a * elem p b := by
  rw [elem, fmul, low_toElem h (polymod_rpoly_lt h.low _), mk_polymod h.low, toPoly_clmul, map_mul]; rfl

theorem elem_fsqr (h : p.Sized) (a : FieldElem) : elem p (fsqr p a) = elem p a ^ 2 := by
  rw [elem, fsqr, low_toElem h (polymod_rpoly_lt h.low _), mk_polymod h.low, toPoly_spread, map_pow]; rfl

theorem elem_fpow2 (h : p.Sized) (a : FieldElem) (j : Nat) : elem p (fpow2 p a j) = elem p a ^ 2 ^ j := by
  induction j with
  | zero => simp [fpow2]
  | succ j ih => rw [fpow2, elem_fsqr h, ih, ← pow_mul, ← pow_succ]

theorem elem_fexpBits (h : p.Sized) (a : FieldElem) (n e : Nat) (he : e < 2 ^ n) :
    elem p (fexpBits p a n e) = elem p a ^ e := by
  induction n generalizing e with
  | zero =>
    have : e = 0 := by simpa using he
    rw [fexpBits, this, pow_zero, elem_one h]
  | succ n ih =>
    have hn : e / 2 < 2 ^ n := by rw [pow_succ] at he; omega
    have hodd : e.testBit 0 = decide (e % 2 = 1) := Nat.testBit_zero e
    unfold fexpBits
    rw [hodd]
    split
    · rename_i ho
      have ho : e % 2 = 1 := by simpa using ho
      rw [elem_fmul h, elem_fsqr h, ih _ hn, ← pow_mul, ← pow_succ]
      congr 1; omega
    · rename_i ho
      have ho : ¬ e % 2 = 1 := by simpa using ho
      rw [elem_fsqr h, ih _ hn, ← pow_mul]
      congr 1; omega

theorem elem_fexp (h : p.Sized) (a : FieldElem) (e : Nat) : elem p (fexp p a e) = elem p a ^ e :=
  elem_fexpBits h a _ e Nat.lt_log2_self

theorem elem_finv (h : p.Sized) (a : FieldElem) : elem p (finv p a) = elem p a ^ (2 ^ p.M - 2) := elem_fexp h a _

/-- The element `x` (bit 1 set) is the class of the polynomial's root. -/
theorem elem_x (h : p.Sized) : elem p 2 = AdjoinRoot.root _ := by
  have hx : (2 : FieldElem).toNat = 2 ^ 1 := rfl
  have hc : p.Canonical 2 := by
    have : (2 : Nat) ^ 2 ≤ 2 ^ p.M := Nat.pow_le_pow_right (by decide) h.degree.1
    exact lt_of_lt_of_le (by decide) this
  rw [elem, low_of_canonical hc, hx, toPoly_two_pow, pow_one, AdjoinRoot.mk_X]

theorem elem_fmulx (h : p.Sized) (a : FieldElem) : elem p (fmulx p a) = elem p a * elem p 2 := by
  have hs : (a.toNat <<< 1) % 2 ^ p.M < 2 ^ p.M := Nat.mod_lt _ (by positivity)
  have hM : p.M - 1 + 1 = p.M := by have := h.degree.1; omega
  have hsh : p.low a <<< 1 = (a.toNat <<< 1) % 2 ^ p.M ^^^ (if a.toNat.testBit (p.M - 1) then 2 ^ p.M else 0) := by
    have h1 := mod_two_pow_succ_xor (a.toNat <<< 1) p.M
    have h2 : (a.toNat <<< 1).testBit p.M = a.toNat.testBit (p.M - 1) := by
      rw [Nat.testBit_shiftLeft]
      have : 1 ≤ p.M := by omega
      simp [this]
    rw [h2] at h1
    rw [← h1, Params.low, Nat.shiftLeft_eq, Nat.shiftLeft_eq, pow_one, pow_succ, Nat.mul_mod_mul_right]
  have hroot : (AdjoinRoot.mk (toPoly p.rpoly)) (toPoly (2 ^ p.M)) = AdjoinRoot.mk _ (toPoly p.rpolyLow.toNat) := by
    rw [AdjoinRoot.mk_eq_mk, sub_eq_add_neg, CharTwo.neg_eq, ← toPoly_xor]; exact dvd_rfl
  have hmul : elem p a * elem p 2 = AdjoinRoot.mk _ (toPoly (p.low a <<< 1)) := by
    rw [elem_x h, toPoly_shiftLeft, pow_one, map_mul, AdjoinRoot.mk_X]; rfl
  rw [hmul, hsh, toPoly_xor, map_add]
  unfold fmulx
  split
  · rw [elem, low_toElem h (Nat.xor_lt_two_pow hs h.low), toPoly_xor, map_add, hroot]
  · rw [elem, low_toElem h hs, toPoly_zero, map_zero, add_zero]

/-- Canonical elements with the same class are equal: a field register's canonical content is determined by its class. -/
theorem elem_injective (h : p.LowPartFits) {a b : FieldElem} (ha : p.Canonical a) (hb : p.Canonical b)
    (he : elem p a = elem p b) : a = b := by
  rw [elem, elem, low_of_canonical ha, low_of_canonical hb, AdjoinRoot.mk_eq_mk, sub_eq_add_neg, CharTwo.neg_eq,
    ← toPoly_xor] at he
  have hlt : a.toNat ^^^ b.toNat < 2 ^ p.M := Nat.xor_lt_two_pow ha hb
  have hdeg : (toPoly (a.toNat ^^^ b.toNat)).degree < (toPoly p.rpoly).degree := by
    rw [degree_toPoly (rpoly_ne_zero h), log2_rpoly h]; exact degree_toPoly_lt.2 hlt
  have h0 := toPoly_eq_zero.1 (Polynomial.eq_zero_of_dvd_of_degree_lt he hdeg)
  exact BitVec.eq_of_toNat_eq (Nat.eq_of_xor_eq_zero h0)

end Ring

section FieldStructure

theorem natDegree_rpoly (h : p.LowPartFits) : (toPoly p.rpoly).natDegree = p.M := by
  have hd := degree_toPoly (rpoly_ne_zero h)
  rw [log2_rpoly h] at hd
  exact natDegree_eq_of_degree_eq_some hd

theorem toPoly_rpoly_ne_zero (h : p.LowPartFits) : toPoly p.rpoly ≠ 0 :=
  fun h0 => rpoly_ne_zero h (toPoly_eq_zero.1 h0)

/-- The check `Params.Irreducible` is irreducibility in (ZMod 2)[X]. -/
theorem irreducible_toPoly_rpoly (hM : p.DegreeInRange) (hl : p.LowPartFits) (hi : p.Irreducible) :
    Irreducible (toPoly p.rpoly) := by
  have hdeg := natDegree_rpoly hl
  have hF := toPoly_rpoly_ne_zero hl
  refine ⟨fun hu => ?_, fun a b hab => ?_⟩
  · have := natDegree_eq_zero_of_isUnit hu
    omega
  · by_contra hcon
    push Not at hcon
    obtain ⟨ha, hb⟩ := hcon
    have ha0 : a ≠ 0 := fun h0 => hF (by rw [hab, h0, zero_mul])
    have hb0 : b ≠ 0 := fun h0 => hF (by rw [hab, h0, mul_zero])
    have hda : a.natDegree ≠ 0 := fun h0 => ha (by rw [isUnit_iff_degree_eq_zero, degree_eq_natDegree ha0, h0]; rfl)
    have hdb : b.natDegree ≠ 0 := fun h0 => hb (by rw [isUnit_iff_degree_eq_zero, degree_eq_natDegree hb0, h0]; rfl)
    have hsum : a.natDegree + b.natDegree = p.M := by rw [← natDegree_mul ha0 hb0, ← hab, hdeg]
    obtain ⟨g, rfl⟩ := toPoly_surjective a
    have hg0 : g ≠ 0 := fun h0 => ha0 (by simp [h0])
    have hgd : (toPoly g).natDegree = g.log2 := natDegree_eq_of_degree_eq_some (degree_toPoly hg0)
    have hg2 : 2 ≤ g := by
      by_contra hlt
      have h1 : g = 1 := by omega
      simp [h1] at hda
    have hgM : g < 2 ^ p.M :=
      lt_of_lt_of_le Nat.lt_log2_self (Nat.pow_le_pow_right (by decide) (by omega))
    apply hi g hgM hg2
    rw [← toPoly_eq_zero, toPoly_polymod _ _ hg0, hab]
    simp

/-- The ring of the block's elements has characteristic 2. -/
theorem charP_elem (hM : p.DegreeInRange) (hl : p.LowPartFits) : CharP (AdjoinRoot (toPoly p.rpoly)) 2 := by
  have hnt : Nontrivial (AdjoinRoot (toPoly p.rpoly)) := by
    apply AdjoinRoot.nontrivial
    rw [degree_eq_natDegree (toPoly_rpoly_ne_zero hl), natDegree_rpoly hl]
    have := hM.1
    exact_mod_cast (by omega : p.M ≠ 0)
  exact charP_of_injective_algebraMap (algebraMap (ZMod 2) _).injective 2

end FieldStructure

end Sys2Proof.Machine
end

