-- ==== Sys2Proof/Laws/Curve.lean ====
section
/-! SUPPORT. The point functions keep canonical pairs, and the two halves of a point register differ. -/

namespace Sys2Proof.Machine

variable {p : Params}

theorem xReg_ne_yReg (a b : PReg) : a.xReg ≠ b.yReg := by
  intro h
  have := congrArg Fin.val h
  simp only [PReg.xReg, PReg.yReg] at this
  omega

theorem xReg_injective {a b : PReg} (h : a.xReg = b.xReg) : a = b := by
  have := congrArg Fin.val h
  simp only [PReg.xReg] at this
  exact Fin.ext (by omega)

theorem yReg_injective {a b : PReg} (h : a.yReg = b.yReg) : a = b := by
  have := congrArg Fin.val h
  simp only [PReg.yReg] at this
  exact Fin.ext (by omega)

theorem pdblf_canonical (h : p.Sized) {q : Point} (hx : p.Canonical q.1) :
    p.Canonical (pdblf p q).1 ∧ p.Canonical (pdblf p q).2 := by
  unfold pdblf
  split
  · exact ⟨zero_canonical p, zero_canonical p⟩
  · exact ⟨fadd_canonical (fadd_canonical (fsqr_canonical h.low _) (fadd_canonical hx (fmul_canonical h.low _ _)))
      h.curve.1, fadd_canonical (fsqr_canonical h.low _) (fmul_canonical h.low _ _)⟩

theorem paddf_canonical (h : p.Sized) {q r : Point} (hq : p.Canonical q.1 ∧ p.Canonical q.2)
    (hr : p.Canonical r.1 ∧ p.Canonical r.2) : p.Canonical (paddf p q r).1 ∧ p.Canonical (paddf p q r).2 := by
  have hX : p.Canonical (sumX p (chord p q r) q.1 r.1) :=
    fadd_canonical (fadd_canonical (fadd_canonical (fadd_canonical (fsqr_canonical h.low _)
      (fmul_canonical h.low _ _)) hq.1) hr.1) h.curve.1
  unfold paddf
  split_ifs
  · exact hr
  · exact hq
  · exact pdblf_canonical h hq.1
  · exact ⟨zero_canonical p, zero_canonical p⟩
  · exact ⟨hX, fadd_canonical (fadd_canonical (fmul_canonical h.low _ _) hX) hq.2⟩

theorem ladderLoop_canonical (h : p.Sized) (k : Scalar) (n : Nat) (L : Point × Point)
    (h1 : p.Canonical L.1.1 ∧ p.Canonical L.1.2) (h2 : p.Canonical L.2.1 ∧ p.Canonical L.2.2) :
    p.Canonical (ladderLoop p k n L).1.1 ∧ p.Canonical (ladderLoop p k n L).1.2 := by
  induction n generalizing L with
  | zero => exact h1
  | succ n ih =>
    apply ih <;> unfold ladderStep <;> split
    · exact paddf_canonical h h1 h2
    · exact pdblf_canonical h h1.1
    · exact pdblf_canonical h h2.1
    · exact paddf_canonical h h1 h2

end Sys2Proof.Machine
end

