-- ==== Sys2Proof/Laws/Decode.lean ====
section
/-! SUPPORT. What the fields of a packed command word read as, and what the rows of the opcode table see of them. -/

namespace Sys2Proof

section Fields

variable (op : BitVec 6) (d a b : BitVec 4) (imm : BitVec 8)

theorem getLsbD_packWord (i : Nat) : (packWord op d a b imm).getLsbD i =
    if i < 6 then op.getLsbD i else if i < 8 then false else if i < 12 then d.getLsbD (i - 8)
    else if i < 16 then a.getLsbD (i - 12) else if i < 20 then b.getLsbD (i - 16)
    else if i < 24 then false else imm.getLsbD (i - 24) := by
  simp only [packWord, BitVec.getLsbD_append]
  by_cases h6 : i < 6
  · simp [h6, show i < 24 by omega, show i < 20 by omega, show i < 16 by omega, show i < 12 by omega, show i < 8 by omega]
  · by_cases h8 : i < 8
    · simp [h6, h8, show i < 24 by omega, show i < 20 by omega, show i < 16 by omega, show i < 12 by omega]
    · by_cases h12 : i < 12
      · simp [h6, h8, h12, show i < 24 by omega, show i < 20 by omega, show i < 16 by omega]
      · by_cases h16 : i < 16
        · simp [h6, h8, h12, h16, show i < 24 by omega, show i < 20 by omega]
        · by_cases h20 : i < 20
          · simp [h6, h8, h12, h16, h20, show i < 24 by omega]
          · by_cases h24 : i < 24 <;> simp [h6, h8, h12, h16, h20, h24]

@[simp] theorem fieldOp_packWord : fieldOp (packWord op d a b imm) = op := by
  ext i hi
  simp only [fieldOp, BitVec.getElem_extractLsb', getLsbD_packWord, Nat.zero_add, if_pos hi, BitVec.getLsbD_eq_getElem hi]

@[simp] theorem fieldD_packWord : fieldD (packWord op d a b imm) = d := by
  ext i hi
  simp only [fieldD, BitVec.getElem_extractLsb', getLsbD_packWord, Nat.add_sub_cancel_left]
  simp [show ¬ 8 + i < 6 by omega, show ¬ 8 + i < 8 by omega, show 8 + i < 12 by omega, BitVec.getLsbD_eq_getElem hi]

@[simp] theorem fieldA_packWord : fieldA (packWord op d a b imm) = a := by
  ext i hi
  simp only [fieldA, BitVec.getElem_extractLsb', getLsbD_packWord, Nat.add_sub_cancel_left]
  simp [show ¬ 12 + i < 6 by omega, show ¬ 12 + i < 8 by omega, show ¬ 12 + i < 12 by omega, show 12 + i < 16 by omega,
    BitVec.getLsbD_eq_getElem hi]

@[simp] theorem fieldB_packWord : fieldB (packWord op d a b imm) = b := by
  ext i hi
  simp only [fieldB, BitVec.getElem_extractLsb', getLsbD_packWord, Nat.add_sub_cancel_left]
  simp [show ¬ 16 + i < 6 by omega, show ¬ 16 + i < 8 by omega, show ¬ 16 + i < 12 by omega,
    show ¬ 16 + i < 16 by omega, show 16 + i < 20 by omega, BitVec.getLsbD_eq_getElem hi]

@[simp] theorem fieldImm_packWord : fieldImm (packWord op d a b imm) = imm := by
  ext i hi
  simp only [fieldImm, BitVec.getElem_extractLsb', getLsbD_packWord, Nat.add_sub_cancel_left]
  simp [show ¬ 24 + i < 6 by omega, show ¬ 24 + i < 8 by omega, show ¬ 24 + i < 12 by omega,
    show ¬ 24 + i < 16 by omega, show ¬ 24 + i < 20 by omega, show ¬ 24 + i < 24 by omega,
    BitVec.getLsbD_eq_getElem hi]

/-- A word is packed from its fields where its reserved bits are 0. -/
theorem packWord_fields (w : Word) (h : w &&& 0x00F000C0 = 0) :
    packWord (fieldOp w) (fieldD w) (fieldA w) (fieldB w) (fieldImm w) = w := by
  have hz : ∀ i, (w.getLsbD i && (0x00F000C0 : Word).getLsbD i) = false := fun i => by
    rw [← BitVec.getLsbD_and, h]; simp
  apply BitVec.eq_of_getLsbD_eq
  intro i hi
  rw [getLsbD_packWord]
  simp only [fieldOp, fieldD, fieldA, fieldB, fieldImm, BitVec.getLsbD_extractLsb']
  have h1 := hz i
  interval_cases i <;> simp_all

/-- Masking a packed word masks its fields. -/
theorem packWord_and (m : Word) : packWord op d a b imm &&& m =
    packWord (op &&& fieldOp m) (d &&& fieldD m) (a &&& fieldA m) (b &&& fieldB m) (imm &&& fieldImm m) := by
  apply BitVec.eq_of_getLsbD_eq
  intro i hi
  rw [BitVec.getLsbD_and, getLsbD_packWord, getLsbD_packWord]
  simp only [BitVec.getLsbD_and, fieldOp, fieldD, fieldA, fieldB, fieldImm, BitVec.getLsbD_extractLsb']
  interval_cases i <;> simp

/-- A packed word is a given word exactly when its fields are, and the given word's reserved bits are 0. -/
theorem packWord_eq_iff (x : Word) : packWord op d a b imm = x ↔
    op = fieldOp x ∧ d = fieldD x ∧ a = fieldA x ∧ b = fieldB x ∧ imm = fieldImm x ∧ x &&& 0x00F000C0 = 0 := by
  constructor
  · rintro rfl
    refine ⟨by simp, by simp, by simp, by simp, by simp, ?_⟩
    apply BitVec.eq_of_getLsbD_eq
    intro i hi
    rw [BitVec.getLsbD_and, getLsbD_packWord]
    interval_cases i <;> simp
  · rintro ⟨rfl, rfl, rfl, rfl, rfl, h⟩
    exact packWord_fields x h

/-- When a row of the opcode table matches a packed word, field by field. -/
theorem matches_packWord (r : Row) : r.matches (packWord op d a b imm) = true ↔
    op &&& fieldOp r.mask = fieldOp r.mtch ∧ d &&& fieldD r.mask = fieldD r.mtch ∧
    a &&& fieldA r.mask = fieldA r.mtch ∧ b &&& fieldB r.mask = fieldB r.mtch ∧
    imm &&& fieldImm r.mask = fieldImm r.mtch ∧ r.mtch &&& 0x00F000C0 = 0 := by
  rw [Row.matches, beq_iff_eq, packWord_and, packWord_eq_iff]

end Fields

@[simp] theorem fregOf_fregField (i : FReg) : fregOf (fregField i) = i := rfl

@[simp] theorem fregField_fregOf (v : BitVec 4) : fregField (fregOf v) = v := rfl

@[simp] theorem pregOf_pregField (i : PReg) : pregOf (pregField i) = i := by revert i; decide

end Sys2Proof
end

