-- ==== Sys2Proof/Laws/PerInstr.lean ====
section
/-! SUPPORT. Facts about each command as syntax, one lemma per constructor of Instr. -/

namespace Sys2Proof.Laws

/-- The word of a command holds its opcode in OP, and 0 in the reserved bits RES0 and RES1 (30_encoding.md R91, R96). -/
def EncodedFields.Statement (i : Instr) : Prop :=
  (fieldOp (encode i)).toNat = i.opcode ∧ encode i &&& 0x00F000C0 = 0

namespace EncodedFields

/-- A packed word has 0 in its reserved bits. -/
theorem reserved_packWord (op : BitVec 6) (d a b : BitVec 4) (imm : BitVec 8) :
    packWord op d a b imm &&& 0x00F000C0 = 0 := ((packWord_eq_iff op d a b imm _).1 rfl).2.2.2.2.2

theorem zero (d : FReg) : Statement (.zero d) := ⟨by simp [encode, Instr.opcode], reserved_packWord _ _ _ _ _⟩
theorem copy (d a : FReg) : Statement (.copy d a) := ⟨by simp [encode, Instr.opcode], reserved_packWord _ _ _ _ _⟩
theorem isZero (a : FReg) : Statement (.isZero a) := ⟨by simp [encode, Instr.opcode], reserved_packWord _ _ _ _ _⟩
theorem add (d a b : FReg) : Statement (.add d a b) := ⟨by simp [encode, Instr.opcode], reserved_packWord _ _ _ _ _⟩
theorem mulx (d a : FReg) : Statement (.mulx d a) := ⟨by simp [encode, Instr.opcode], reserved_packWord _ _ _ _ _⟩
theorem mul (d a b : FReg) : Statement (.mul d a b) := ⟨by simp [encode, Instr.opcode], reserved_packWord _ _ _ _ _⟩
theorem sqr (d a : FReg) : Statement (.sqr d a) := ⟨by simp [encode, Instr.opcode], reserved_packWord _ _ _ _ _⟩
theorem itpow (d a : FReg) (j : BitVec 8) : Statement (.itpow d a j) :=
  ⟨by simp [encode, Instr.opcode], reserved_packWord _ _ _ _ _⟩
theorem inv (d a : FReg) : Statement (.inv d a) := ⟨by simp [encode, Instr.opcode], reserved_packWord _ _ _ _ _⟩
theorem pisinf (a : PReg) : Statement (.pisinf a) := ⟨by simp [encode, Instr.opcode], reserved_packWord _ _ _ _ _⟩
theorem pdbl (d a : PReg) : Statement (.pdbl d a) := ⟨by simp [encode, Instr.opcode], reserved_packWord _ _ _ _ _⟩
theorem padd (d a b : PReg) : Statement (.padd d a b) := ⟨by simp [encode, Instr.opcode], reserved_packWord _ _ _ _ _⟩
theorem smul (d a : PReg) : Statement (.smul d a) := ⟨by simp [encode, Instr.opcode], reserved_packWord _ _ _ _ _⟩

end EncodedFields

end Sys2Proof.Laws
end

