-- ==== Sys2Proof/Tests/Slice0.lean ====
section
/-! SUPPORT. Tests of the model: words written out from the spec's encodings, values from the spec's vectors or worked by
hand, the smoke tests of the checks, and a witness for the hypotheses of each statement that has some. -/

namespace Sys2Proof.Tests

open Sys2Proof.Machine

set_option maxRecDepth 8000

/-! ## A small build: GF(8) with f = x^3 + x + 1, and the curve y^2 + xy = x^3 + x^2 + 1 -/

/-- The small build of the hand-worked tests. -/
def toy : Params := { M := 3, rpolyLow := 3, curveA := 1, curveB := 1 }

/-- The small build after reset, with F0 to F4 and K loaded. -/
def toyState : State :=
  { State.resetOf toy with F := #v[2, 0, 0, 1, 5, 0, 0, 0, 0, 0, 0, 0, 0, 0, 0, 0], K := 2 }

/-- `toyState` with a ZERO F1 in flight. -/
def toyBusy : State := toyState.accepted (.zero 1) (.write [(1, 0)])

/-- The result that a step left in PEND. -/
def pendingResult : Answer → Option Result
  | .next t => t.pend.map (·.result)
  | .fault _ => none
  | .refused _ => none

/-- What a next state shows through `f`. -/
def seen {α : Type} (f : State → α) : Answer → Option α
  | .next t => some (f t)
  | .fault _ => none
  | .refused _ => none

/-! ## Smoke tests: each check refuses an ill-formed term -/

theorem test_degree_too_small : ¬ ({ toy with M := 1 } : Params).DegreeInRange := by decide
theorem test_degree_too_large : ¬ ({ toy with M := 241 } : Params).DegreeInRange := by decide
theorem test_low_part_too_wide : ¬ ({ toy with rpolyLow := 8 } : Params).LowPartFits := by decide
theorem test_curve_a_not_canonical : ¬ ({ toy with curveA := 8 } : Params).CurveCanonical := by decide
theorem test_curve_b_not_canonical : ¬ ({ toy with curveB := 8 } : Params).CurveCanonical := by decide
theorem test_curve_b_zero : ¬ ({ toy with curveB := 0 } : Params).CurveNonsingular := by decide
/-- x^2 + 1 = (x + 1)^2. -/
theorem test_reducible : ¬ ({ toy with M := 2, rpolyLow := 1 } : Params).Irreducible := by decide
theorem test_half_word_access : ¬ (Event.read .half 0x100).OnPort := by decide
theorem test_byte_access : ¬ (Event.write .byte 0x100 0).OnPort := by decide
theorem test_misaligned_access : ¬ (Event.read .word 0x102).OnPort := by decide
theorem test_access_outside_window : ¬ (Event.write .word 0x1000 0).OnPort := by decide
theorem test_fdiv_scratch_is_dividend : ¬ (Pseudo.fdiv 0 1 2 1).WellFormed := by decide

theorem toy_sized : toy.Sized := ⟨by decide, by decide, by decide, by decide⟩
theorem toy_wellFormed : toy.WellFormed := { toy_sized with irreducible := by decide }
theorem default_sized : sect233r1.Sized := ⟨by decide, by decide, by decide, by decide⟩

/-! ## Decoding: words written out from the field layout of R91, with the examples of R125 to R186 -/

theorem test_decode_zero : decode 0x00000501 = .ok (.zero 5) := by decide
theorem test_decode_copy : decode 0x00000302 = .ok (.copy 3 0) := by decide
theorem test_decode_iszero : decode 0x00005003 = .ok (.isZero 5) := by decide
theorem test_decode_add : decode 0x00032404 = .ok (.add 4 2 3) := by decide
theorem test_decode_mulx : decode 0x00000105 = .ok (.mulx 1 0) := by decide
theorem test_decode_mul : decode 0x0000FF06 = .ok (.mul 15 15 0) := by decide
theorem test_decode_sqr : decode 0x00002307 = .ok (.sqr 3 2) := by decide
theorem test_decode_itpow : decode 0x74002108 = .ok (.itpow 1 2 116) := by decide
theorem test_decode_inv : decode 0x00000409 = .ok (.inv 4 0) := by decide
theorem test_decode_pisinf : decode 0x00007010 = .ok (.pisinf 7) := by decide
theorem test_decode_pdbl : decode 0x00000711 = .ok (.pdbl 7 0) := by decide
theorem test_decode_padd : decode 0x00001212 = .ok (.padd 2 1 0) := by decide
theorem test_decode_smul : decode 0x00000313 = .ok (.smul 3 0) := by decide

/-- The illegal words of 95_test_vectors.md section 4.1, each with the name of its reason. -/
theorem test_decode_illegal :
    [0x00000000, 0x0000000A, 0x0000000F, 0x00000014, 0x0000003F].map decode =
      List.replicate 5 (.error .reservedOpcode) ∧
    [0x00000041, 0x00100004, 0x00F00004, 0x00FFFF04, 0x00000093].map decode =
      List.replicate 5 (.error .reservedBits) ∧
    [0x00001001, 0x01000002, 0x00010010].map decode = List.replicate 3 (.error .unusedField) ∧
    [0x00008010, 0x00000811, 0x00080012].map decode = List.replicate 3 (.error .pointIndex) := by decide

theorem test_encode_examples :
    encode (.mul 2 0 1) = 0x00010206 ∧ encode (.itpow 1 2 116) = 0x74002108 ∧ encode (.padd 2 1 0) = 0x00001212 ∧
      encode (.smul 3 0) = 0x00000313 := by decide

theorem test_decode_table_word : decodeTableWord 32 0xFF00FF08 = some (.itpow 15 15 255) := by decide

theorem test_assemble :
    assemble "PADD P2, P1, P0".toList = some [.padd 2 1 0] ∧ assemble "ITPOW F1,F2,#0x74".toList = some [.itpow 1 2 116] ∧
      assemble "PNEG P1, P0".toList = some [.add 3 0 1, .copy 2 0] ∧ assemble "MUL F2, F0".toList = none := by decide

/-! ## Values -/

/-- x^232 of the default instance. -/
def xTop : FieldElem := 1 <<< 232

/-- The base point's x coordinate (93_implementation_defined.md I9). -/
def gx : FieldElem := 0x00FAC9DFCBAC8313BB2139F1BB755FEF65BC391F8B36F8F8EB7371FD558B

/-- The base point's y coordinate (93_implementation_defined.md I9). -/
def gy : FieldElem := 0x01006A08A41903350678E58528BEBF8A0BEFF867A7CA36716F7E01F81052

/-- The default instance with Gx in F0, Gy in F1 and x^232 in F2. -/
def defaultState : State := ((State.reset.setFreg 0 gx).setFreg 1 gy).setFreg 2 xTop

theorem test_zero : pendingResult (exec (.zero 5) defaultState) = some (.write [(5, 0)]) := by decide
theorem test_copy : pendingResult (exec (.copy 3 0) defaultState) = some (.write [(3, gx)]) := by decide
/-- V-ISZ-2 and the reset value. -/
theorem test_iszero : pendingResult (exec (.isZero 2) defaultState) = some (.setZ false) ∧
    pendingResult (exec (.isZero 5) defaultState) = some (.setZ true) := by decide
/-- V-ADD-1. -/
theorem test_add : pendingResult (exec (.add 0 0 1) defaultState) =
    some (.write [(0, 0x01FAA3D76FB58026BD59DC7493CBE0656E53C1782CFCCE89840D700545D9)]) := by decide
/-- V-MULX-2: the one reduction step gives x^74 + 1. -/
theorem test_mulx : pendingResult (exec (.mulx 1 2) defaultState) =
    some (.write [(1, 0x000000000000000000000000000000000000000004000000000000000001)]) := by decide
/-- V-MUL-1. -/
theorem test_mul : pendingResult (exec (.mul 2 0 1) defaultState) =
    some (.write [(2, 0x0001C6D6A3072ECB17F328C969CB7D4FD91D3E8E5D7DBA0C7EB352828319)]) := by decide +kernel
/-- V-SQR-1. -/
theorem test_sqr : pendingResult (exec (.sqr 1 0) defaultState) =
    some (.write [(1, 0x00DF363367F225632BF562E6F8871C6D98B537780DFAD1F3B68ACCC9AFAB)]) := by decide +kernel
/-- V-ITP-1: with j = 0 the source is copied. -/
theorem test_itpow_zero : pendingResult (exec (.itpow 1 0 0) defaultState) = some (.write [(1, gx)]) := by decide +kernel
/-- By hand in GF(8): 2^(2^2) = x^4 = x^2 + x. -/
theorem test_itpow : pendingResult (exec (.itpow 1 0 2) toyState) = some (.write [(1, 6)]) := by decide
/-- By hand in GF(8): x · (x^2 + 1) = x^3 + x = 1. -/
theorem test_inv : pendingResult (exec (.inv 1 0) toyState) = some (.write [(1, 5)]) := by decide
/-- R133: a zero source fails. -/
theorem test_inv_of_zero : pendingResult (exec (.inv 5 1) toyState) = some (.fail .invZero) := by decide
/-- V-PISINF-1, V-PISINF-2: O is (0, 0); (0, 1) is not O. -/
theorem test_pisinf : pendingResult (exec (.pisinf 3) toyState) = some (.setZ true) ∧
    pendingResult (exec (.pisinf 1) toyState) = some (.setZ false) := by decide
/-- V-PDBL-4, worked by hand with CURVE_A = 1: (1, 1) doubles to (1, 0); and V-PDBL-3: x = 0 doubles to O. -/
theorem test_pdbl : pdblf toy (1, 1) = (1, 0) ∧
    pendingResult (exec (.pdbl 1 1) toyState) = some (.write [(2, 0), (3, 0)]) := by decide
/-- By hand in GF(8), for (x, 0): lambda = x, x3 = lambda^2 + lambda + a = x^2 + x + 1 = 7, and
y3 = x^2 + (lambda + 1)·x3 = x^2 + (x + 1)(x^2 + x + 1) = x^2 + (x^3 + 1) = x^2 + x = 6. -/
theorem test_pdbl_formula : pendingResult (exec (.pdbl 2 0) toyState) = some (.write [(4, 7), (5, 6)]) := by decide
/-- V-PADD-3, V-PADD-4: O + Q = Q, and (x, 0) + (x, x) = O because -(x, 0) = (x, x). -/
theorem test_padd : pendingResult (exec (.padd 3 3 0) toyState) = some (.write [(6, 2), (7, 0)]) ∧
    paddf toy (2, 0) (2, 2) = (0, 0) := by decide
/-- V-SMUL-3 in the small build: K = 2 gives the double. -/
theorem test_smul : pendingResult (exec (.smul 2 0) toyState) = some (.write [(4, 7), (5, 6)]) := by decide +kernel

/-! ## The bus and the lifecycle: lines of 95_test_vectors.md section 4.2 -/

theorem test_e1_write_below_m :
    seen (fun t => (t.statusWord, t.freg 15)) (step (State.reset.schedule [wr 0x2FC 0x000001FF])) =
      some (0x00000000, 0x01FF00000000000000000000000000000000000000000000000000000000) := by decide
theorem test_e2_write_at_m :
    seen (fun t => (t.statusWord, t.freg 15)) (step (State.reset.schedule [wr 0x2FC 0x00000200])) =
      some (0x00000504, 0) := by decide
theorem test_e6_scalar_any_value :
    seen (fun t => (t.statusWord, t.K)) (step (State.reset.schedule [wr 0x05C 0x0000FFFF])) =
      some (0x00000000, 0xFFFF00000000000000000000000000000000000000000000000000000000) := by decide
theorem test_e8_id : seen (·.replies) (step (State.reset.schedule [rd 0x000])) = some [⟨0x000, 0x01101EE9⟩] := by decide
theorem test_e15_accepted : seen (·.statusWord) (step (State.reset.withFetchWord 32 0x00000001)) = some 0x00000001 := by
  decide
theorem test_e16_completed : seen (fun t => (t.statusWord, t.freg 1)) (step (toyBusy.schedule [.engine])) =
    some (0x00000002, 0) := by decide
/-- R214: an illegal word while BUSY = 1 records CMD_BUSY. -/
theorem test_busy_before_illegal : seen (·.statusWord) (step (toyBusy.schedule [wr 0x00C 0])) = some 0x00000205 := by decide
/-- R214: a non-canonical F write while BUSY = 1 records WRITE_BUSY. -/
theorem test_busy_before_range : seen (·.statusWord) (step (toyBusy.schedule [wr 0x100 8])) = some 0x00000405 := by decide
/-- R240: reset discards the command in flight. -/
theorem test_reset_while_busy : seen (fun t => (t.statusWord, t.freg 0, t.pend)) (step (toyBusy.schedule [.rst true])) =
    some (0, 0, none) := by decide

/-! ## Witnesses: states and operands that meet the hypotheses of the statements -/

theorem toyState_inv : toyState.Inv where
  params := toy_sized
  canonical := by decide
  busy := rfl
  done := by decide
  errcode := by decide
  errcodeRange := by decide
  pendResult := by intro c h; cases h
  underReset := by decide

theorem toyBusy_inv : toyBusy.Inv where
  params := toy_sized
  canonical := by decide
  busy := rfl
  done := by decide
  errcode := by decide
  errcodeRange := by decide
  pendResult := by intro c h; cases h; rfl
  underReset := by decide

/-- The state a step leads to. -/
def after (s : State) : State :=
  match step s with
  | .next t => t
  | .fault _ => s
  | .refused _ => s

theorem witness_EncodeOfDecode : decode 0x00077712 = .ok (.padd 7 7 7) := by decide
theorem witness_ReservedBitsAreIllegal :
    ((0x00000041 : Word).extractLsb' 6 2 ≠ 0 ∧ (0x00000041 : Word).extractLsb' 20 4 = 0) ∧
    ((0x00100004 : Word).extractLsb' 6 2 = 0 ∧ (0x00100004 : Word).extractLsb' 20 4 ≠ 0) := by decide
theorem witness_ReservedOpcodesAreIllegal :
    (0x40 : Word).toNat % 64 = 0 ∧ (0x0A ≤ (0x0A : Word).toNat % 64 ∧ (0x0F : Word).toNat % 64 ≤ 0x0F) ∧
      0x14 ≤ (0x14 : Word).toNat % 64 ∧ 0x14 ≤ (0x3F : Word).toNat % 64 := by decide
theorem witness_StepRunsDecodedCommand :
    (toyState.withFetchWord 32 0x00000113).rst = false ∧
    (toyState.withFetchWord 32 0x00000113).inputs = [.write .word 0x00C 0x00000113] ∧
    decode 0x00000113 = .ok (.smul 1 0) := by decide
theorem witness_StepRejectsIllegalWord :
    (toyState.withFetchWord 32 0x00008010).rst = false ∧
    (toyState.withFetchWord 32 0x00008010).inputs = [.write .word 0x00C 0x00008010] ∧
    decode 0x00008010 = .error .pointIndex := by decide

/-- An idle state, for every statement whose hypothesis on the state is BUSY = 0 alone, or with `Params.Sized` (the
statements of ZERO to ITPOW, PISINF, SMUL, MULX, MUL and SQR, and IdleBlockAcceptsEveryCommand). -/
theorem witness_idle : toyState.busy = false ∧ toyState.params.Sized := ⟨rfl, toy_sized⟩
theorem witness_BusyBlockTurnsCommandsAway : toyBusy.busy = true := rfl
theorem witness_InvCompletes : toyState.busy = false ∧ toyState.params.Sized ∧ toyState.F[(0 : FReg)] ≠ 0 :=
  ⟨rfl, toy_sized, by decide⟩
theorem witness_InvOfZeroRecordsError : toyState.busy = false ∧ toyState.F[(1 : FReg)] = 0 := by decide
/-- Both cases: x = 0 in P1, x ≠ 0 in P0 (the slope and the formula's coordinates are 2, 7 and 6). -/
theorem witness_PdblCompletes :
    toyState.busy = false ∧ toyState.F[(1 : PReg).xReg] = 0 ∧ toyState.F[(0 : PReg).xReg] = 2 ∧
    toyState.F[(0 : PReg).yReg] = 0 ∧ (2 : FieldElem) = 2 ^^^ fmul toy 0 (finv toy 2) ∧
    (7 : FieldElem) = fsqr toy 2 ^^^ 2 ^^^ toy.curveA ∧ (6 : FieldElem) = fsqr toy 2 ^^^ fmul toy (2 ^^^ 1) 7 := by decide
/-- The five cases: P3 = O as first and as second operand, equal operands, x alone equal, and x unequal. -/
theorem witness_PaddCompletes :
    toyState.busy = false ∧ toyState.preg 3 = (0, 0) ∧ toyState.preg 0 = (2, 0) ∧
    (toyState.setFreg 6 2).preg 3 = (2, 0) ∧ ((toyState.setFreg 6 2).setFreg 7 2).preg 3 = (2, 2) ∧
    toyState.preg 1 = (0, 1) := by decide

theorem witness_PolymodIsUniqueRemainder : (11 : Nat) ≠ 0 := by decide
theorem witness_MultiplicationLaws : toy.Sized ∧ toy.Canonical 7 ∧ toy.Canonical 5 ∧ toy.Canonical 2 :=
  ⟨toy_sized, by decide, by decide, by decide⟩
theorem witness_FrobeniusLaws : toy.Sized ∧ toy.Canonical 7 ∧ toy.Irreducible :=
  ⟨toy_sized, by decide, toy_wellFormed.irreducible⟩
theorem witness_InverseLaws : toy.WellFormed ∧ toy.Canonical 7 ∧ (7 : FieldElem) ≠ 0 :=
  ⟨toy_wellFormed, by decide, by decide⟩
theorem witness_ItohTsujiiChain : toy.Sized ∧ toy.Canonical 7 ∧ 1 ≤ 1 ∧ 1 ≤ 2 :=
  ⟨toy_sized, by decide, by decide, by decide⟩
theorem witness_CommandResultsAreCanonical : toyState.params.Sized ∧ ∀ r, toyState.params.Canonical (toyState.freg r) :=
  ⟨toy_sized, toyState_inv.canonical⟩
theorem witness_OnlyInvOfZeroFails :
    execCase (.inv 5 1) toyState = .fail .invZero ∧ execCase (.isZero 1) toyState = .setZ true ∧
    execCase (.pisinf 3) toyState = .setZ true := by decide

/-- Points of the toy curve: O, (2, 5), (3, 0) and the 2-torsion point (0, 1). -/
theorem witness_PointAdditionIsAGroupLaw :
    toy.WellFormed ∧ OnCurveOrO toy infinity ∧ OnCurveOrO toy (2, 5) ∧ OnCurveOrO toy (3, 0) ∧ OnCurveOrO toy (0, 1) :=
  ⟨toy_wellFormed, .inl rfl, .inr (by decide), .inr (by decide), .inr (by decide)⟩
theorem witness_LadderIsRepeatedAddition : toy.WellFormed ∧ OnCurveOrO toy (2, 5) :=
  ⟨toy_wellFormed, .inr (by decide)⟩

theorem witness_PointRegisterIsAView :
    (0 : FReg).val = 2 * (0 : PReg).val ∧ (15 : FReg).val = 2 * (7 : PReg).val + 1 ∧ (0 : PReg) ≠ 7 := by decide

theorem witness_ResetMeetsInvariant : toy.Sized ∧ sect233r1.Sized := ⟨toy_sized, default_sized⟩
theorem witness_StepKeepsInvariant : toyBusy.Inv ∧ step toyBusy = .next (after toyBusy) := ⟨toyBusy_inv, rfl⟩
theorem witness_InvariantRunsNeverFault : toyBusy.Inv := toyBusy_inv
theorem witness_ResetStepClearsEverything :
    (toyBusy.schedule [.rst true]).inputs = [.rst true] ∧ (toyBusy.schedule [.rst true]).params.M < 256 := by decide

theorem witness_ScalarChangesOnlyByHost :
    (step (toyState.schedule [wr 0x040 7]) = .next (after (toyState.schedule [wr 0x040 7])) ∧
      (after (toyState.schedule [wr 0x040 7])).K ≠ toyState.K) ∧
    step (toyState.schedule [.rst true]) = .next (after (toyState.schedule [.rst true])) ∧
      (after (toyState.schedule [.rst true])).K ≠ toyState.K := ⟨⟨rfl, by decide⟩, rfl, by decide⟩

/-- `toyState` with an ISZERO F1 in flight. -/
def toyTesting : State := toyState.accepted (.isZero 1) (.setZ true)
theorem toyTesting_inv : toyTesting.Inv where
  params := toy_sized
  canonical := by decide
  busy := rfl
  done := by decide
  errcode := by decide
  errcodeRange := by decide
  pendResult := by intro c h; cases h; decide
  underReset := by decide
theorem witness_ZChangesOnlyByTests :
    toyTesting.EngineTurn ∧ (toyTesting.schedule [.engine]).EngineTurn ∧
    (toyTesting.Inv ∧ step toyTesting = .next (after toyTesting) ∧ (after toyTesting).z ≠ toyTesting.z) ∧
    step (toyState.schedule [.rst true]) = .next (after (toyState.schedule [.rst true])) :=
  ⟨.inl rfl, .inr ⟨[], rfl⟩, ⟨toyTesting_inv, rfl, by decide⟩, rfl⟩
/-- A host write, a completion and a reset that change a field register. -/
theorem witness_FieldRegisterChanges :
    (step (toyState.schedule [wr 0x100 7]) = .next (after (toyState.schedule [wr 0x100 7])) ∧
      (after (toyState.schedule [wr 0x100 7])).F[(0 : FReg)] ≠ toyState.F[(0 : FReg)]) ∧
    (step (toyState.accepted (.zero 0) (.write [(0, 0)])) = .next (after (toyState.accepted (.zero 0) (.write [(0, 0)]))) ∧
      (after (toyState.accepted (.zero 0) (.write [(0, 0)]))).F[(0 : FReg)] ≠ toyState.F[(0 : FReg)]) ∧
    step (toyState.schedule [.rst true]) = .next (after (toyState.schedule [.rst true])) ∧
      (after (toyState.schedule [.rst true])).F[(0 : FReg)] ≠ toyState.F[(0 : FReg)] :=
  ⟨⟨rfl, by decide⟩, ⟨rfl, by decide⟩, rfl, by decide⟩

/-- `toyState` with a RANGE error recorded. -/
def toyFailed : State := toyState.raise .range
/-- ERR = 1 kept by a second error and cleared by a STATUS write; ERR = 0 with ERRCODE = 0 before a first error. -/
theorem witness_ErrorIsSticky :
    (toyFailed.err = true ∧ step (toyFailed.schedule [wr 0x00C 0]) = .next (after (toyFailed.schedule [wr 0x00C 0]))) ∧
    step (toyFailed.schedule [wr 0x008 4]) = .next (after (toyFailed.schedule [wr 0x008 4])) ∧
    toyState.err = false ∧ toyState.errcode = 0 ∧
    step (toyState.schedule [wr 0x00C 0]) = .next (after (toyState.schedule [wr 0x00C 0])) :=
  ⟨⟨rfl, rfl⟩, rfl, rfl, rfl, rfl⟩
/-- BUSY rises at an acceptance and falls at a completion; DONE rises there and falls by a STATUS write. -/
theorem witness_BusyAndDoneTransitions :
    (toyState.busy = false ∧ (after (toyState.schedule [cmd (.zero 1)])).busy = true) ∧
    (toyBusy.busy = true ∧ (after toyBusy).busy = false ∧ toyBusy.done = false ∧ (after toyBusy).done = true) ∧
    (toyState.retire.done = true ∧ (after (toyState.retire.schedule [wr 0x008 2])).done = false) := by decide
theorem witness_HostCannotDisturbCommand :
    toyBusy.busy = true ∧ (toyBusy.schedule [wr 0x100 7]).inputs = [.write .word 0x100 7] ∧
    step (toyBusy.schedule [wr 0x100 7]) = .next (after (toyBusy.schedule [wr 0x100 7])) ∧
    step (toyBusy.schedule [rd 0x100]) = .next (after (toyBusy.schedule [rd 0x100])) := ⟨rfl, rfl, rfl, rfl⟩
theorem witness_CommandEventuallyCompletes :
    toyBusy.Inv ∧ toyBusy.busy = true ∧ toyBusy.rst = false ∧
      ∀ e ∈ toyBusy.inputs, e.OnPort ∧ ∀ b, e ≠ .rst b := ⟨toyBusy_inv, rfl, rfl, by intro e h; cases h⟩
theorem witness_InterruptFollowsCompletion :
    (step (toyState.schedule [wr 0x00C 0]) = .next (after (toyState.schedule [wr 0x00C 0])) ∧
      toyState.err = false ∧ (after (toyState.schedule [wr 0x00C 0])).err = true) ∧
    CompletesWith (.zero 1) toyState (.write [(1, 0)]) (after toyBusy) ∧
    (toyFailed.schedule [wr 0x008 6]).inputs = [.write .word 0x008 6] ∧ (6 : Word).getLsbD 1 = true ∧
    (6 : Word).getLsbD 2 = true ∧ (toyFailed.schedule [wr 0x004 0]).inputs = [.write .word 0x004 0] ∧
    (0 : Word).getLsbD 0 = false := ⟨⟨rfl, rfl, by decide⟩, ⟨rfl, rfl⟩, rfl, by decide, by decide, rfl, by decide⟩

/-- The first and the last word of K and of the register file. -/
theorem witness_IdleReadsReturnRegisterWords :
    toyState.rst = false ∧ toyState.busy = false ∧ (toyState.schedule [rd 0x05C]).inputs = [.read .word 0x05C] ∧
    0x040 = 0x040 + 4 * (0 : Fin 8).val ∧ 0x05C = 0x040 + 4 * (7 : Fin 8).val ∧
    0x100 = 0x100 + 0x20 * (0 : FReg).val + 4 * (0 : Fin 8).val ∧
    0x2FC = 0x100 + 0x20 * (15 : FReg).val + 4 * (7 : Fin 8).val := by decide
theorem witness_BusyReadsAreFreeDraws :
    toyBusy.rst = false ∧ toyBusy.busy = true ∧ (toyBusy.schedule [rd 0x2FC]).inputs = [.read .word 0x2FC] ∧
    0x040 = 0x040 + 4 * (0 : Fin 8).val ∧ 0x2FC = 0x100 + 0x20 * (15 : FReg).val + 4 * (7 : Fin 8).val := by decide
theorem witness_ControlRegisterReads :
    toyBusy.rst = false ∧ toyBusy.params.M < 256 ∧ (toyBusy.schedule [rd 0x000]).inputs = [.read .word 0x000] ∧
    (toyBusy.schedule [rd 0x004]).inputs = [.read .word 0x004] ∧
    (toyBusy.schedule [rd 0x008]).inputs = [.read .word 0x008] ∧
    (toyBusy.schedule [rd 0x00C]).inputs = [.read .word 0x00C] := by decide
/-- Every reserved range at both ends, and ID. -/
theorem witness_ReservedOffsetsAreInert :
    toyState.rst = false ∧ (∀ off ∈ [0x000, 0x010, 0x03C, 0x060, 0x0FC, 0x300, 0xFFC], off % 4 = 0 ∧ off < 0x1000 ∧
      ((0x010 ≤ off ∧ off ≤ 0x03C) ∨ (0x060 ≤ off ∧ off ≤ 0x0FC) ∨ 0x300 ≤ off ∨ off = 0)) ∧
    (toyState.schedule [rd 0xFFC]).inputs = [.read .word 0xFFC] ∧
    (toyState.schedule [wr 0x000 5]).inputs = [.write .word 0x000 5] := by decide
/-- With M = 3: 8 sets bit 3 and is out of range, 7 is not; and the write while busy. -/
theorem witness_FieldWordWrites :
    (toyState.Inv ∧ toyBusy.Inv) ∧ toyState.rst = false ∧ toyBusy.busy = true ∧ toyState.busy = false ∧
    (toyState.schedule [wr 0x100 8]).inputs = [.write .word (0x100 + 0x20 * (0 : FReg).val + 4 * (0 : Fin 8).val) 8] ∧
    (∃ n < 32, (8 : Word).getLsbD n = true ∧ toyState.params.M ≤ 32 * (0 : Fin 8).val + n) ∧
    ∀ n < 32, (7 : Word).getLsbD n = true → 32 * (0 : Fin 8).val + n < toyState.params.M :=
  ⟨⟨toyState_inv, toyBusy_inv⟩, by decide⟩
/-- Word 7 with 0x10000 and with 0xFFFF, and word 6 with any value. -/
theorem witness_ScalarWordWrites :
    toyState.rst = false ∧ toyBusy.busy = true ∧ toyState.busy = false ∧
    (toyState.schedule [wr 0x05C 0x10000]).inputs = [.write .word (0x040 + 4 * (7 : Fin 8).val) 0x10000] ∧
    ((7 : Fin 8) = 7 ∧ 2 ^ 16 ≤ (0x10000 : Word).toNat) ∧ ¬ ((7 : Fin 8) = 7 ∧ 2 ^ 16 ≤ (0xFFFF : Word).toNat) ∧
    ¬ ((6 : Fin 8) = 7 ∧ 2 ^ 16 ≤ (0xFFFFFFFF : Word).toNat) := by decide
theorem witness_ControlRegisterWrites :
    toyBusy.rst = false ∧ (toyBusy.schedule [wr 0x004 1]).inputs = [.write .word 0x004 1] ∧
    (toyFailed.schedule [wr 0x008 6]).inputs = [.write .word 0x008 6] := by decide
theorem witness_UnportableAccessesAreRefused :
    (toyState.schedule [.read .half 0x100]).inputs = [.read .half 0x100] ∧ AccessSize.half ≠ .word ∧
    (toyState.schedule [.write .word 0x1000 0]).inputs = [.write .word 0x1000 0] ∧ 0x1000 ≤ 0x1000 ∧
    (toyState.schedule [.read .word 0xFFE]).inputs = [.read .word 0xFFE] ∧ 0xFFE < 0x1000 ∧ 0xFFE % 4 ≠ 0 ∧
    toyState.rst = false ∧ (after (toyState.schedule [.rst true, rd 0x000])).rst = true ∧
    (after (toyState.schedule [.rst true, rd 0x000])).inputs = [.read .word 0x000] := by decide
theorem witness_EightWritesLoadARegister :
    toyState.Inv ∧ toyState.rst = false ∧ toyState.busy = false ∧ toyState.params.Canonical 7 ∧
    (toyState.schedule (ldF 15 7)).inputs = ldF 15 7 ++ [] := ⟨toyState_inv, by decide⟩
theorem witness_BufferWordsAreRegisterWords : (0 : Nat) < 32 ∧ (31 : Nat) < 32 := by decide
theorem witness_PseudoCommandsDoWhatTheyName :
    toyState.busy = false ∧ toyState.rst = false ∧ (Pseudo.fdiv 0 0 3 3).WellFormed ∧ toyState.F[(3 : FReg)] ≠ 0 ∧
    (Pseudo.pneg 0 0).WellFormed ∧ (Pseudo.setinf 0).WellFormed ∧ (Pseudo.pcopy 1 0).WellFormed ∧
    (Pseudo.sqrn 1 0 3).WellFormed := by decide

end Sys2Proof.Tests
end

section
/-! The polynomial primitives of R18: the bits of the carry-less product and of the spreading, and division with
remainder. Each is read off the operation of (ZMod 2)[X] that the primitive computes. -/

namespace Sys2Proof.Machine

open Polynomial

/-! ## Bits as coefficients -/

/-- `coeff_toPoly` from the side of the bit vector. -/
theorem testBit_eq_decide_coeff (a i : Nat) : a.testBit i = decide ((toPoly a).coeff i = 1) := by
  rw [coeff_toPoly]
  cases a.testBit i <;> decide

/-- Over GF(2) a sum of indicators is the number of the indices it marks. -/
theorem sum_range_indicator_eq_countP (P : Nat → Bool) (n : Nat) :
    ∑ i ∈ Finset.range n, (if P i then 1 else 0 : ZMod 2) = ((List.range n).countP P : ZMod 2) := by
  induction n with
  | zero => simp
  | succ n ih =>
    rw [Finset.sum_range_succ, ih, List.range_succ, List.countP_append, List.countP_singleton]
    push_cast
    rfl

/-- A product of coefficients of bit vectors is the AND of the bits. -/
theorem coeff_toPoly_mul_coeff_toPoly (a b i j : Nat) :
    (toPoly a).coeff i * (toPoly b).coeff j = if a.testBit i && b.testBit j then 1 else 0 := by
  rw [coeff_toPoly, coeff_toPoly]
  cases a.testBit i <;> cases b.testBit j <;> decide

/-! ## The carry-less product and the spreading -/

/-- Coefficient `k` of `clmul`, the convolution of R18 as a count over GF(2). -/
theorem coeff_toPoly_clmul (a b k : Nat) :
    (toPoly (clmul a b)).coeff k =
      ((List.range (k + 1)).countP (fun i => a.testBit i && b.testBit (k - i)) : ZMod 2) := by
  rw [toPoly_clmul, coeff_mul, Finset.Nat.sum_antidiagonal_eq_sum_range_succ_mk, ← sum_range_indicator_eq_countP]
  exact Finset.sum_congr rfl fun i _ => coeff_toPoly_mul_coeff_toPoly a b i (k - i)

theorem testBit_clmul (a b k : Nat) : (clmul a b).testBit k =
    decide ((List.range (k + 1)).countP (fun i => a.testBit i && b.testBit (k - i)) % 2 = 1) := by
  rw [testBit_eq_decide_coeff, coeff_toPoly_clmul, decide_eq_decide, ZMod.natCast_eq_one_iff_odd, Nat.odd_iff]

/-- Coefficient `n` of `spread`: squaring over GF(2) puts `x^2` for `x`. -/
theorem coeff_toPoly_spread (a n : Nat) :
    (toPoly (spread a)).coeff n = if 2 ∣ n then (toPoly a).coeff (n / 2) else 0 := by
  rw [toPoly_spread, ← ZMod.expand_card, coeff_expand (by decide)]

theorem testBit_spread_even (a i : Nat) : (spread a).testBit (2 * i) = a.testBit i := by
  rw [testBit_eq_decide_coeff, coeff_toPoly_spread, if_pos (Nat.dvd_mul_right 2 i), Nat.mul_div_cancel_left i (by decide),
    ← testBit_eq_decide_coeff]

theorem testBit_spread_odd (a i : Nat) : (spread a).testBit (2 * i + 1) = false := by
  rw [testBit_eq_decide_coeff, coeff_toPoly_spread, if_neg (by omega)]
  decide

/-- Settles O26: `clmul` is the product of (ZMod 2)[X], whose coefficients are convolutions, and `spread` the square. -/
theorem productAndSpreadBits : Obligations.ProductAndSpreadBits :=
  ⟨testBit_clmul, fun a i => ⟨testBit_spread_even a i, testBit_spread_odd a i⟩⟩

/-! ## Division with remainder -/

/-- Every `v` has a quotient by `f` that leaves `polymod v f`. -/
theorem exists_clmul_xor_polymod (v f : Nat) (hf : f ≠ 0) : ∃ q, v = clmul q f ^^^ polymod v f := by
  obtain ⟨q, hq⟩ := toPoly_surjective (toPoly v / toPoly f)
  refine ⟨q, toPoly_injective ?_⟩
  rw [toPoly_xor, toPoly_clmul, toPoly_polymod v f hf, hq, mul_comm, EuclideanDomain.div_add_mod]

/-- A vector of degree below that of `f` is the remainder of every multiple of `f` it is added to. -/
theorem polymod_clmul_xor {f u : Nat} (q : Nat) (hf : f ≠ 0) (hu : u < 2 ^ f.log2) :
    polymod (clmul q f ^^^ u) f = u := by
  have hdeg : (toPoly u).degree < (toPoly f).degree := by
    rw [degree_toPoly hf]
    exact degree_toPoly_lt.2 hu
  apply toPoly_injective
  calc toPoly (polymod (clmul q f ^^^ u) f)
      = (toPoly q * toPoly f + toPoly u) % toPoly f := by rw [toPoly_polymod _ f hf, toPoly_xor, toPoly_clmul]
    _ = toPoly u % toPoly f := mod_eq_of_dvd_sub (by simp)
    _ = toPoly u := (mod_eq_self_iff (mt toPoly_eq_zero.1 hf)).2 hdeg

/-- Settles O27: a quotient exists, and the remainder does not depend on it. -/
theorem polymodIsUniqueRemainder : Obligations.PolymodIsUniqueRemainder := by
  intro v f u hf
  constructor
  · rintro rfl
    exact ⟨polymod_lt v f hf, exists_clmul_xor_polymod v f hf⟩
  · rintro ⟨hu, q, rfl⟩
    exact (polymod_clmul_xor q hf hu).symm

end Sys2Proof.Machine
end

section
/-! The point registers: each is a pair of field registers, and no two share one (R34). -/

namespace Sys2Proof.Machine

theorem pointWrites_nodup (d : PReg) (q : Point) : ((pointWrites d q).map (·.1)).Nodup := by
  simp [pointWrites, xReg_ne_yReg]

theorem preg_writeAll_pointWrites_same (s : State) (d : PReg) (q : Point) :
    (s.writeAll (pointWrites d q)).preg d = q := by
  have hx := freg_writeAll_of_mem s (pointWrites d q) (pointWrites_nodup d q) (i := d.xReg) (v := q.1)
    (by simp [pointWrites])
  have hy := freg_writeAll_of_mem s (pointWrites d q) (pointWrites_nodup d q) (i := d.yReg) (v := q.2)
    (by simp [pointWrites])
  exact Prod.ext hx hy

theorem preg_writeAll_pointWrites_other (s : State) {a d : PReg} (h : a ≠ d) (q : Point) :
    (s.writeAll (pointWrites d q)).preg a = s.preg a := by
  have hx := freg_writeAll_of_notMem s (pointWrites d q) a.xReg
    (by simpa [pointWrites, xReg_ne_yReg] using mt xReg_injective h)
  have hy := freg_writeAll_of_notMem s (pointWrites d q) a.yReg
    (by simpa [pointWrites, (xReg_ne_yReg _ _).symm] using mt yReg_injective h)
  exact Prod.ext hx hy

theorem preg_setFreg_xReg (s : State) (d : PReg) (v : FieldElem) :
    (s.setFreg d.xReg v).preg d = (v, (s.preg d).2) :=
  Prod.ext (freg_setFreg_same s _ v) (freg_setFreg_other s (xReg_ne_yReg d d) v)

theorem preg_setFreg_yReg (s : State) (d : PReg) (v : FieldElem) :
    (s.setFreg d.yReg v).preg d = ((s.preg d).1, v) :=
  Prod.ext (freg_setFreg_other s (xReg_ne_yReg d d).symm v) (freg_setFreg_same s _ v)

/-- Settles O37: the two registers of a point differ, and different points share none. -/
theorem pointRegisterIsAView : Obligations.PointRegisterIsAView := by
  intro s d q v
  refine ⟨fun i hi => ?_, fun i hi => ?_, preg_writeAll_pointWrites_same s d q,
    fun a ha => preg_writeAll_pointWrites_other s ha q, preg_setFreg_xReg s d v, preg_setFreg_yReg s d v⟩
  · obtain rfl : i = d.xReg := Fin.ext hi
    rfl
  · obtain rfl : i = d.yReg := Fin.ext hi
    rfl

end Sys2Proof.Machine
end

section
/-! The entry of the schedule that a step takes, and the one fault of the machine. -/

namespace Sys2Proof.Machine

/-- The next step from `s` takes the entry `e` and leaves the schedule `es`. At the end of the schedule the entry is the
engine's (log entry 4). -/
def State.Takes (s : State) (e : Event) (es : List Event) : Prop :=
  s.inputs = e :: es ∨ (s.inputs = [] ∧ e = .engine ∧ es = [])

section Takes

variable {s t : State} {e : Event} {es : List Event}

/-- `step_next` with both of its ways as one: an entry is taken. -/
theorem step_takes (h : step s = .next t) : ∃ e es, s.Takes e es ∧ EventCase (s.schedule es) t e := by
  rcases step_next h with ⟨hi, hc⟩ | ⟨e, es, hi, hc⟩
  · have hs : s.schedule [] = s := by rw [State.schedule, ← hi]
    exact ⟨.engine, [], .inr ⟨hi, rfl, rfl⟩, hs ▸ hc⟩
  · exact ⟨e, es, .inl hi, hc⟩

theorem State.Takes.inputs_eq (h : s.Takes e es) (he : e ≠ .engine) : s.inputs = e :: es :=
  h.resolve_right fun h => he h.2.1

theorem State.Takes.engineTurn (h : s.Takes .engine es) : s.EngineTurn := by
  rcases h with h | ⟨h, _, _⟩
  · exact .inr ⟨es, h⟩
  · exact .inl h

end Takes

/-! ## When a step stops with a fault -/

theorem memRead_ne_fault (off : Nat) (s : State) (r : Fault) : memRead off s ≠ .fault r := by
  unfold memRead
  split <;> simp

theorem issueCommand_ne_fault (v : Word) (s : State) (r : Fault) : issueCommand v s ≠ .fault r := by
  unfold issueCommand
  split
  · rw [exec_eq_accept, accept]
    split <;> simp
  · simp [rejectWord_eq]

theorem memWrite_ne_fault (off : Nat) (v : Word) (s : State) (r : Fault) : memWrite off v s ≠ .fault r := by
  unfold memWrite
  split <;> simp [issueCommand_ne_fault]

theorem hostAccess_ne_fault {z : AccessSize} {off : Nat} {f : State → Answer} {s : State} {r : Fault}
    (hf : f s ≠ .fault r) : hostAccess z off f s ≠ .fault r := by
  unfold hostAccess
  split
  · simp
  · exact hf

/-- The one fault is the engine's, with no command to complete (log entry 11). -/
theorem engineStep_fault {s : State} {r : Fault} (h : engineStep s = .fault r) : s.busy = true ∧ s.pend = none := by
  cases hb : s.busy with
  | false => simp [engineStep_idle hb] at h
  | true =>
    rw [engineStep_busy hb, complete] at h
    split at h
    · cases h
    · exact ⟨rfl, by assumption⟩

theorem driveReset_ne_fault (b : Bool) (s : State) (r : Fault) : driveReset b s ≠ .fault r := by
  unfold driveReset
  split <;> simp

theorem takeEvent_fault {e : Event} {s : State} {r : Fault} (h : takeEvent e s = .fault r) :
    s.busy = true ∧ s.pend = none := by
  cases e with
  | read z off => exact absurd h (hostAccess_ne_fault (memRead_ne_fault off s r))
  | write z off v => exact absurd h (hostAccess_ne_fault (memWrite_ne_fault off v s r))
  | engine => exact engineStep_fault h
  | rst b => exact absurd h (driveReset_ne_fault b s r)

theorem step_fault {s : State} {r : Fault} (h : step s = .fault r) : s.busy = true ∧ s.pend = none := by
  cases hi : s.inputs with
  | nil => exact engineStep_fault (step_nil hi ▸ h)
  | cons e es =>
    rw [step_cons hi] at h
    simpa using takeEvent_fault h

end Sys2Proof.Machine
end

section
/-! The invariant of the block's states: reset meets it, and every step keeps it (R32, R41, R42, R45, R49, R210,
R240). -/

namespace Sys2Proof.Machine

/-! ## The results of the commands -/

section Results

variable {s : State}

/-- The writes of one register. -/
theorem Result.canonical_write_single {p : Params} {d : FReg} {v : FieldElem} (h : p.Canonical v) :
    (Result.write [(d, v)]).Canonical p := ⟨by simpa using h, by simp⟩

/-- The writes of one point: its halves are two registers (R170). -/
theorem Result.canonical_write_point {p : Params} {d : PReg} {q : Point} (h : p.Canonical q.1 ∧ p.Canonical q.2) :
    (Result.write (pointWrites d q)).Canonical p :=
  ⟨by simpa [pointWrites] using h, pointWrites_nodup d q⟩

/-- The ladder starts from O and the point, both canonical. -/
theorem ladderf_canonical {p : Params} (h : p.Sized) (k : Scalar) {q : Point} (hq : p.Canonical q.1 ∧ p.Canonical q.2) :
    p.Canonical (ladderf p k q).1 ∧ p.Canonical (ladderf p k q).2 :=
  ladderLoop_canonical h k 240 (infinity, q) ⟨zero_canonical p, zero_canonical p⟩ hq

theorem preg_canonical (hc : ∀ r, s.params.Canonical (s.freg r)) (a : PReg) :
    s.params.Canonical (s.preg a).1 ∧ s.params.Canonical (s.preg a).2 := ⟨hc _, hc _⟩

/-- What a command computes from canonical registers is canonical (R124). -/
theorem execCase_canonical (hp : s.params.Sized) (hc : ∀ r, s.params.Canonical (s.freg r)) (i : Instr) :
    (execCase i s).Canonical s.params := by
  cases i with
  | zero d => exact Result.canonical_write_single (zero_canonical _)
  | copy d a => exact Result.canonical_write_single (hc a)
  | isZero a => trivial
  | add d a b => exact Result.canonical_write_single (fadd_canonical (hc a) (hc b))
  | mulx d a => exact Result.canonical_write_single (fmulx_canonical hp.low _)
  | mul d a b => exact Result.canonical_write_single (fmul_canonical hp.low _ _)
  | sqr d a => exact Result.canonical_write_single (fsqr_canonical hp.low _)
  | itpow d a j => exact Result.canonical_write_single (fpow2_canonical hp.low (hc a) _)
  | inv d a =>
    show (invResult d a s).Canonical s.params
    unfold invResult
    split
    · trivial
    · exact Result.canonical_write_single (finv_canonical hp _)
  | pisinf a => trivial
  | pdbl d a => exact Result.canonical_write_point (pdblf_canonical hp (hc _))
  | padd d a b => exact Result.canonical_write_point (paddf_canonical hp (preg_canonical hc a) (preg_canonical hc b))
  | smul d a => exact Result.canonical_write_point (ladderf_canonical hp s.K (preg_canonical hc a))

/-- Only ISZERO and PISINF answer in Z (R123). -/
theorem execCase_eq_setZ {i : Instr} {b : Bool} (h : execCase i s = .setZ b) :
    (∃ a, i = .isZero a) ∨ ∃ a, i = .pisinf a := by
  cases i with
  | isZero a => exact .inl ⟨a, rfl⟩
  | pisinf a => exact .inr ⟨a, rfl⟩
  | inv d a =>
    change invResult d a s = .setZ b at h
    unfold invResult at h
    split at h <;> cases h
  | _ => cases h

end Results

/-! ## The registers after a list of canonical writes -/

theorem setFreg_keeps_canonical {p : Params} {s : State} (hc : ∀ r, p.Canonical (s.freg r)) {i : FReg} {v : FieldElem}
    (hv : p.Canonical v) (r : FReg) : p.Canonical ((s.setFreg i v).freg r) := by
  rw [freg_setFreg]
  split
  · exact hv
  · exact hc r

theorem writeAll_keeps_canonical {p : Params} {s : State} (hc : ∀ r, p.Canonical (s.freg r))
    {ws : List (FReg × FieldElem)} (hw : ∀ w ∈ ws, p.Canonical w.2) (r : FReg) :
    p.Canonical ((s.writeAll ws).freg r) := by
  by_cases h : (s.writeAll ws).freg r = s.freg r
  · exact h ▸ hc r
  · obtain ⟨v, hm, hv⟩ := freg_writeAll_changed s ws h
    exact hv ▸ hw _ hm

theorem applyResult_keeps_canonical {p : Params} {s : State} (hc : ∀ r, p.Canonical (s.freg r)) {x : Result}
    (hx : x.Canonical p) (r : FReg) : p.Canonical ((s.applyResult x).freg r) := by
  cases x with
  | write ws => exact writeAll_keeps_canonical hc hx.1 r
  | setZ b => exact hc r
  | fail c => simpa using hc r

/-- A 256-bit view with no bit at or above `M` is the view of a canonical element (R68). -/
theorem setWidth_canonical {p : Params} {x : BitVec 256} (h : x >>> p.M = 0) : p.Canonical (x.setWidth 240) := by
  have hx : x.toNat / 2 ^ p.M = 0 := by
    rw [← Nat.shiftRight_eq_div_pow, ← BitVec.toNat_ushiftRight, h]
    rfl
  have hlt : x.toNat < 2 ^ p.M := (Nat.div_eq_zero_iff_lt (by positivity)).1 hx
  rw [Params.Canonical, BitVec.toNat_setWidth]
  exact (Nat.mod_le _ _).trans_lt hlt

/-! ## The writes of register words -/

/-- A write of a word of K raises an error or, while the block is idle, sets K and nothing else (R68, R71, R73). -/
theorem writeK_cases (s : State) (j : Fin 8) (v : Word) :
    (∃ c, s.writeK j v = s.raise c) ∨ (s.busy = false ∧ ∃ x, s.writeK j v = { s with K := x }) := by
  unfold State.writeK
  split
  · exact .inl ⟨_, rfl⟩
  · rename_i hb
    split
    · exact .inl ⟨_, rfl⟩
    · exact .inr ⟨by simpa using hb, _, rfl⟩

/-- A write of a word of F[i] raises an error or, while the block is idle, sets F[i] to a canonical value and changes
nothing else (R68, R71, R72). -/
theorem writeF_cases (s : State) (i : FReg) (j : Fin 8) (v : Word) :
    (∃ c, s.writeF i j v = s.raise c) ∨
      (s.busy = false ∧ ∃ x, s.params.Canonical x ∧ s.writeF i j v = s.setFreg i x) := by
  unfold State.writeF
  split
  · exact .inl ⟨_, rfl⟩
  · rename_i hb
    split
    · exact .inl ⟨_, rfl⟩
    · rename_i hM
      exact .inr ⟨by simpa using hb, _, setWidth_canonical (not_not.1 hM), rfl⟩

/-! ## The error registers -/

/-- The two clauses of the invariant about ERR and ERRCODE (R45, R210). -/
structure State.ErrorConsistent (s : State) : Prop where
  zero_iff : s.err = false ↔ s.errcode = 0
  le : s.errcode.toNat ≤ 5

section ErrorRegisters

variable {s : State}

theorem State.Inv.errorConsistent (h : s.Inv) : s.ErrorConsistent := ⟨h.errcode, h.errcodeRange⟩

/-- Only ERR and ERRCODE matter. -/
theorem State.ErrorConsistent.congr {t : State} (h : s.ErrorConsistent) (he : t.err = s.err)
    (hc : t.errcode = s.errcode) : t.ErrorConsistent := ⟨by rw [he, hc]; exact h.zero_iff, by rw [hc]; exact h.le⟩

theorem State.ErrorConsistent.of_clear (he : s.err = false) (hc : s.errcode = 0) : s.ErrorConsistent :=
  ⟨by simp [he, hc], by simp [hc]⟩

theorem State.ErrorConsistent.raise (h : s.ErrorConsistent) (c : ErrorCode) : (s.raise c).ErrorConsistent := by
  cases he : s.err with
  | true => rwa [raise_of_err s c he]
  | false =>
    rw [raise_of_clear s c he]
    exact ⟨iff_of_false nofun (code_ne_zero c), code_le c⟩

theorem State.ErrorConsistent.writeStatus (h : s.ErrorConsistent) (v : Word) : (s.writeStatus v).ErrorConsistent := by
  cases hv : v.getLsbD 2 with
  | true => exact .of_clear (by rw [writeStatus_err, hv]; rfl) (by rw [writeStatus_errcode, hv]; rfl)
  | false => exact h.congr (by rw [writeStatus_err, hv]; rfl) (by rw [writeStatus_errcode, hv]; rfl)

theorem State.ErrorConsistent.applyResult (h : s.ErrorConsistent) (x : Result) : (s.applyResult x).ErrorConsistent := by
  cases x with
  | write ws => exact h.congr (by simp) (by simp)
  | setZ b => exact h.congr rfl rfl
  | fail c => exact h.raise c

end ErrorRegisters

/-! ## Two ways to meet the invariant -/

/-- What the command in flight and its result depend on (R49, R122) is the same in both states. -/
structure State.SameCommand (s t : State) : Prop where
  params : t.params = s.params
  F : t.F = s.F
  K : t.K = s.K
  busy : t.busy = s.busy
  pend : t.pend = s.pend

section Invariant

variable {s t : State}

theorem State.Inv.pend_eq_none (h : s.Inv) (hb : s.busy = false) : s.pend = none := by
  simpa using h.busy.symm.trans hb

/-- While the reset input is asserted no command is in flight (R240). -/
theorem State.Inv.idle_of_rst (h : s.Inv) (hr : s.rst = true) : s.busy = false := by
  rw [← h.underReset hr]
  rfl

/-- An idle state meets the invariant by its registers alone. -/
theorem State.Inv.of_idle (hp : t.params.Sized) (hc : ∀ r, t.params.Canonical (t.freg r)) (hb : t.busy = false)
    (hn : t.pend = none) (he : t.ErrorConsistent) (hr : t.rst = true → t.toReset = t) : t.Inv where
  params := hp
  canonical := hc
  busy := by rw [hb, hn]; rfl
  done := by simp [hb]
  errcode := he.zero_iff
  errcodeRange := he.le
  pendResult := by simp [hn]
  underReset := hr

/-- A change of flags that leaves the registers and the command alone keeps the invariant. -/
theorem State.Inv.of_sameCommand (h : s.Inv) (hs : s.SameCommand t) (hd : s.done = false → t.done = false)
    (he : t.ErrorConsistent) (hr : t.rst = true → t.toReset = t) : t.Inv where
  params := hs.params ▸ h.params
  canonical r := by rw [hs.params, freg_of_F hs.F]; exact h.canonical r
  busy := by rw [hs.busy, hs.pend]; exact h.busy
  done hb := hd (h.done (hs.busy ▸ hb))
  errcode := he.zero_iff
  errcodeRange := he.le
  pendResult c hc := by rw [execCase_congr hs.F hs.K hs.params]; exact h.pendResult c (hs.pend ▸ hc)
  underReset := hr

/-! ## Each operation keeps the invariant -/

theorem State.Inv.schedule (h : s.Inv) (es : List Event) : (s.schedule es).Inv :=
  h.of_sameCommand ⟨rfl, rfl, rfl, rfl, rfl⟩ id (h.errorConsistent.congr rfl rfl) fun hr => by
    conv_rhs => rw [← h.underReset hr]
    rfl

theorem State.Inv.raise (h : s.Inv) (hr : s.rst = false) (c : ErrorCode) : (s.raise c).Inv :=
  h.of_sameCommand ⟨by simp, by simp, by simp, by simp, by simp⟩ (by simp) (h.errorConsistent.raise c) (by simp [hr])

/-- A host read changes only what belongs to the model (R67, R70). -/
theorem State.Inv.read (h : s.Inv) (hr : s.rst = false) (x : Reply) (n : Nat) :
    State.Inv { s with replies := x :: s.replies, draws := n } :=
  h.of_sameCommand ⟨rfl, rfl, rfl, rfl, rfl⟩ id (h.errorConsistent.congr rfl rfl) (by simp [hr])

theorem State.Inv.writeCtrl (h : s.Inv) (hr : s.rst = false) (v : Word) : (s.writeCtrl v).Inv :=
  h.of_sameCommand ⟨rfl, rfl, rfl, rfl, rfl⟩ id (h.errorConsistent.congr rfl rfl) (by simp [hr])

theorem State.Inv.writeStatus (h : s.Inv) (hr : s.rst = false) (v : Word) : (s.writeStatus v).Inv :=
  h.of_sameCommand ⟨by simp, by simp, by simp, by simp, by simp⟩ (by simp +contextual)
    (h.errorConsistent.writeStatus v) (by simp [hr])

theorem State.Inv.writeK (h : s.Inv) (hr : s.rst = false) (j : Fin 8) (v : Word) : (s.writeK j v).Inv := by
  rcases writeK_cases s j v with ⟨c, hw⟩ | ⟨hb, x, hw⟩
  · exact hw ▸ h.raise hr c
  · rw [hw]
    exact .of_idle h.params h.canonical hb (h.pend_eq_none hb) (h.errorConsistent.congr rfl rfl) (by simp [hr])

theorem State.Inv.writeF (h : s.Inv) (hr : s.rst = false) (i : FReg) (j : Fin 8) (v : Word) : (s.writeF i j v).Inv := by
  rcases writeF_cases s i j v with ⟨c, hw⟩ | ⟨hb, x, hx, hw⟩
  · exact hw ▸ h.raise hr c
  · rw [hw]
    exact .of_idle h.params (setFreg_keeps_canonical h.canonical hx) hb (h.pend_eq_none hb)
      (h.errorConsistent.congr rfl rfl) (by simp [hr])

/-- An acceptance keeps the invariant: the result is the one the sources give (R49, R120). -/
theorem State.Inv.accepted (h : s.Inv) (hr : s.rst = false) (i : Instr) : (s.accepted i (execCase i s)).Inv where
  params := h.params
  canonical := h.canonical
  busy := rfl
  done _ := rfl
  errcode := h.errcode
  errcodeRange := h.errcodeRange
  pendResult := by
    rintro _ ⟨⟩
    exact (execCase_congr (accepted_F s i _) (accepted_K s i _) (accepted_params s i _) i).symm
  underReset := by simp [hr]

/-- A completion keeps the invariant: what the result writes is canonical (R121, R124). -/
theorem State.Inv.completed (h : s.Inv) {c : PendingCommand} (hb : s.busy = true) (hp : s.pend = some c) :
    (s.applyResult c.result).retire.Inv := by
  have hc : c.result.Canonical s.params := h.pendResult c hp ▸ execCase_canonical h.params h.canonical c.cmd
  have hr : s.rst = false := Bool.eq_false_iff.2 fun hr => by simp [h.idle_of_rst hr] at hb
  exact .of_idle (by simpa using h.params) (by simpa using applyResult_keeps_canonical h.canonical hc) rfl rfl
    ((h.errorConsistent.applyResult c.result).congr rfl rfl) (by simp [hr])

theorem resetOf_inv {p : Params} (hp : p.Sized) : (State.resetOf p).Inv :=
  .of_idle hp (by simp) rfl rfl (.of_clear rfl rfl) (by simp)

/-- The reset step leads to the invariant from every state of a sized build (R240). -/
theorem asserted_inv (hp : s.params.Sized) : State.Inv { s.toReset with rst := true } :=
  .of_idle hp (by simp [State.freg]) rfl rfl (.of_clear rfl rfl) fun _ => rfl

theorem State.Inv.released (h : s.Inv) : State.Inv { s with rst := false } :=
  h.of_sameCommand ⟨rfl, rfl, rfl, rfl, rfl⟩ id (h.errorConsistent.congr rfl rfl) (by simp)

theorem WriteCase.keeps_inv {off : Nat} {v : Word} (h : WriteCase s t off v) (hs : s.Inv) (hr : s.rst = false) :
    t.Inv := by
  cases h with
  | ignored _ ht => exact ht ▸ hs
  | ctrl _ ht => exact ht ▸ hs.writeCtrl hr v
  | status _ ht => exact ht ▸ hs.writeStatus hr v
  | writeK j _ ht => exact ht ▸ hs.writeK hr j v
  | writeF i j _ ht => exact ht ▸ hs.writeF hr i j v
  | issued i _ _ _ ht => exact ht ▸ hs.accepted hr i
  | turnedAway _ _ ht => exact ht ▸ hs.raise hr _
  | illegal _ _ _ ht => exact ht ▸ hs.raise hr _

theorem WriteCase.params_eq {off : Nat} {v : Word} (h : WriteCase s t off v) : t.params = s.params := by
  cases h <;> simp [*]

theorem EventCase.keeps_inv {e : Event} (h : EventCase s t e) (hs : s.Inv) : t.Inv := by
  cases h with
  | read off w n hr _ _ ht _ => exact ht ▸ hs.read hr _ n
  | write off v hr _ _ hw => exact hw.keeps_inv hs hr
  | passed _ ht => exact ht ▸ hs
  | completed c hb hp ht => exact ht ▸ hs.completed hb hp
  | asserted ht => exact ht ▸ asserted_inv hs.params
  | released ht => exact ht ▸ hs.released

theorem EventCase.params_eq {e : Event} (h : EventCase s t e) : t.params = s.params := by
  cases h with
  | write _ _ _ _ _ hw => exact hw.params_eq
  | _ => simp [*]

end Invariant

/-- Settles O38: with all registers at 0 and no command in flight every clause is about zeros. -/
theorem resetMeetsInvariant : Obligations.ResetMeetsInvariant :=
  ⟨resetOf_inv ⟨by decide, by decide, by decide, by decide⟩, fun _ => resetOf_inv⟩

/-- Settles O39: by the entry taken, and for a host write by the target of the write. -/
theorem stepKeepsInvariant : Obligations.StepKeepsInvariant := by
  intro s t hs h
  obtain ⟨e, es, _, hc⟩ := step_takes h
  exact ⟨hc.keeps_inv (hs.schedule es), hc.params_eq⟩

theorem State.Inv.step_ne_fault {s : State} (hs : s.Inv) (r : Fault) : step s ≠ .fault r := by
  intro h
  obtain ⟨hb, hn⟩ := step_fault h
  simp [hs.pend_eq_none, hs.busy, hn] at hb

/-- Settles O40: by induction on the number of steps, each of which keeps the invariant. -/
theorem invariantRunsNeverFault : Obligations.InvariantRunsNeverFault := by
  intro s hs n r
  induction n generalizing s with
  | zero => simp [core_run_zero]
  | succ n ih =>
    cases h : step s with
    | next t =>
      rw [core_run_next n h]
      exact ih t (stepKeepsInvariant s t hs h).1
    | fault r' => exact absurd h (hs.step_ne_fault r')
    | refused r' => simp [core_run_refused n h]

end Sys2Proof.Machine
end

section
/-! What one step can change of each register, and why: inversions of a step, one for each part of the state. -/

namespace Sys2Proof.Machine

section Changes

variable {s t : State} {e : Event} {off : Nat} {v : Word}

/-! ## K, Z and the field registers -/

/-- The step from `s` to `t` is the completion of the command `c` in flight (R121). -/
structure State.Completes (s t : State) (c : PendingCommand) : Prop where
  busy : s.busy = true
  pend : s.pend = some c
  eq : t = (s.applyResult c.result).retire

theorem WriteCase.K_changed (h : WriteCase s t off v) (hK : t.K ≠ s.K) :
    s.busy = false ∧ ∃ j, target off = .kWord j := by
  cases h with
  | writeK j hm ht =>
    rcases writeK_cases s j v with ⟨c, hw⟩ | ⟨hb, _⟩
    · simp [ht, hw] at hK
    · exact ⟨hb, j, hm⟩
  | _ => simp [*] at hK

theorem EventCase.K_changed (h : EventCase s t e) (hK : t.K ≠ s.K) :
    (s.busy = false ∧ ∃ (j : Fin 8) (v : Word), e = .write .word (0x040 + 4 * j.val) v) ∨ e = .rst true := by
  cases h with
  | write off v _ _ ha hw =>
    obtain ⟨hb, j, hm⟩ := hw.K_changed hK
    exact .inl ⟨hb, j, v, by rw [target_eq_kWord ha hm]⟩
  | asserted => exact .inr rfl
  | _ => simp [*] at hK

/-- Settles O42: among the entries only a write to a word of K and the reset step touch K. -/
theorem scalarChangesOnlyByHost : Obligations.ScalarChangesOnlyByHost := by
  intro s t h hK
  obtain ⟨e, es, he, hc⟩ := step_takes h
  rcases hc.K_changed hK with ⟨hb, j, v, rfl⟩ | rfl
  · exact .inl ⟨j, v, es, hb, he.inputs_eq nofun⟩
  · exact .inr ⟨es, he.inputs_eq nofun⟩

theorem WriteCase.z_eq (h : WriteCase s t off v) : t.z = s.z := by cases h <;> simp [*]

theorem EventCase.z_changed (h : EventCase s t e) (hz : t.z ≠ s.z) :
    (e = .engine ∧ ∃ c, s.Completes t c) ∨ e = .rst true := by
  cases h with
  | write _ _ _ _ _ hw => exact absurd hw.z_eq hz
  | completed c hb hp ht => exact .inl ⟨rfl, c, hb, hp, ht⟩
  | asserted => exact .inr rfl
  | _ => simp [*] at hz

theorem applyResult_z_changed {x : Result} (h : (s.applyResult x).z ≠ s.z) :
    ∃ b, x = .setZ b ∧ (s.applyResult x).z = b := by
  cases x with
  | setZ b => exact ⟨b, rfl, rfl⟩
  | _ => simp at h

/-- The step that asserts the reset input (R240). -/
theorem step_assert {es : List Event} (hi : s.inputs = .rst true :: es) :
    step s = .next { (s.schedule es).toReset with rst := true } := by
  rw [step_cons hi]
  rfl

/-- Settles O43: a completion changes Z by an answer alone, and of the results only those of ISZERO and PISINF are
answers. -/
theorem zChangesOnlyByTests : Obligations.ZChangesOnlyByTests := by
  intro s t hs h
  constructor
  · intro hz
    obtain ⟨e, es, he, hc⟩ := step_takes h
    rcases hc.z_changed hz with ⟨rfl, c, hb, hp, rfl⟩ | rfl
    · obtain ⟨b, hr, hz'⟩ := applyResult_z_changed hz
      have hcmd := execCase_eq_setZ ((hs.pendResult c hp).symm.trans hr)
      exact .inl ⟨he.engineTurn, hb, rfl, rfl, rfl, c, b, hp, hr, hz', hcmd⟩
    · exact .inr ⟨es, he.inputs_eq nofun⟩
  · intro es hi
    rw [step_assert hi] at h
    cases h
    rfl

theorem WriteCase.freg_changed {i : FReg} (h : WriteCase s t off v) (hF : t.freg i ≠ s.freg i) :
    s.busy = false ∧ ∃ j, target off = .fWord i j := by
  cases h with
  | writeF i' j hm ht =>
    rcases writeF_cases s i' j v with ⟨c, hw⟩ | ⟨hb, x, _, hw⟩
    · simp [ht, hw] at hF
    · have hi : i' = i := by
        by_contra hne
        exact hF (by rw [ht, hw, freg_setFreg_other s hne])
      exact ⟨hb, j, hi ▸ hm⟩
  | _ => simp [*] at hF

theorem EventCase.freg_changed {i : FReg} (h : EventCase s t e) (hF : t.freg i ≠ s.freg i) :
    (s.busy = false ∧ ∃ (j : Fin 8) (v : Word), e = .write .word (0x100 + 0x20 * i.val + 4 * j.val) v) ∨
      (e = .engine ∧ ∃ c, s.Completes t c) ∨ (e = .rst true ∧ t.freg i = 0) := by
  cases h with
  | write off v _ _ ha hw =>
    obtain ⟨hb, j, hm⟩ := hw.freg_changed hF
    exact .inl ⟨hb, j, v, by rw [target_eq_fWord ha hm]⟩
  | completed c hb hp ht => exact .inr (.inl ⟨rfl, c, hb, hp, ht⟩)
  | asserted ht => exact .inr (.inr ⟨rfl, by rw [ht]; exact freg_toReset s i⟩)
  | read _ _ _ _ _ _ ht => exact absurd (freg_of_F (by rw [ht]) i) hF
  | passed _ ht => exact absurd (by rw [ht]) hF
  | released ht => exact absurd (freg_of_F (by rw [ht]) i) hF

theorem applyResult_freg_changed {x : Result} {i : FReg} (h : (s.applyResult x).freg i ≠ s.freg i) :
    ∃ ws v, x = .write ws ∧ (i, v) ∈ ws ∧ (s.applyResult x).freg i = v := by
  cases x with
  | write ws =>
    obtain ⟨v, hm, hv⟩ := freg_writeAll_changed s ws h
    exact ⟨ws, v, rfl, hm, hv⟩
  | setZ b => exact absurd rfl h
  | fail c => simp at h

/-- Settles O44: a register that a completion changes is among the writes of the command's result. -/
theorem fieldRegisterChanges : Obligations.FieldRegisterChanges := by
  intro s t i h hF
  obtain ⟨e, es, he, hc⟩ := step_takes h
  rcases hc.freg_changed hF with ⟨hb, j, v, rfl⟩ | ⟨rfl, c, hb, hp, rfl⟩ | ⟨rfl, h0⟩
  · exact .inl ⟨j, v, es, hb, he.inputs_eq nofun⟩
  · obtain ⟨ws, v, hr, hm, hv⟩ := applyResult_freg_changed hF
    exact .inr (.inl ⟨he.engineTurn, hb, rfl, rfl, rfl, c, ws, v, hp, hr, hm, hv⟩)
  · exact .inr (.inr ⟨es, he.inputs_eq nofun, h0⟩)

/-! ## ERR and ERRCODE -/

/-- Everything that the entry `e` can do to ERR and ERRCODE (R43, R45, R212, R217). -/
inductive ErrorCase (s t : State) (e : Event) : Prop
  | kept (he : t.err = s.err) (hc : t.errcode = s.errcode)
  | raised (c : ErrorCode) (hs : s.err = false) (he : t.err = true) (hc : t.errcode = c.code) (hie : t.ie = s.ie)
  | acknowledged (v : Word) (hev : e = .write .word 0x008 v) (hv : v.getLsbD 2 = true) (he : t.err = false)
      (hc : t.errcode = 0)
  | reset (hev : e = .rst true) (he : t.err = false) (hc : t.errcode = 0)

/-- An update that does to ERR and ERRCODE what `raise` does: it keeps the first error (R212). -/
theorem ErrorCase.of_raise (c : ErrorCode) (he : t.err = true)
    (hc : t.errcode = if s.err then s.errcode else c.code) (hie : t.ie = s.ie) : ErrorCase s t e := by
  cases hs : s.err with
  | false => exact .raised c hs he (by simpa [hs] using hc) hie
  | true => exact .kept (he.trans hs.symm) (by simpa [hs] using hc)

theorem raise_errorCase (s : State) (c : ErrorCode) : ErrorCase s (s.raise c) e :=
  .of_raise c (by simp) (by simp) (by simp)

theorem writeStatus_errorCase (s : State) (v : Word) : ErrorCase s (s.writeStatus v) (.write .word 0x008 v) := by
  cases hv : v.getLsbD 2 with
  | true => exact .acknowledged v rfl hv (by rw [writeStatus_err, hv]; rfl) (by rw [writeStatus_errcode, hv]; rfl)
  | false => exact .kept (by rw [writeStatus_err, hv]; rfl) (by rw [writeStatus_errcode, hv]; rfl)

theorem retire_applyResult_errorCase (s : State) (x : Result) : ErrorCase s (s.applyResult x).retire e := by
  cases x with
  | fail c => exact .of_raise c (by simp) (by simp) (by simp)
  | write ws => exact .kept (by simp) (by simp)
  | setZ b => exact .kept rfl rfl

theorem WriteCase.errorCase (h : WriteCase s t off v) : ErrorCase s t (.write .word off v) := by
  cases h with
  | ignored _ ht => exact .kept (by rw [ht]) (by rw [ht])
  | ctrl _ ht => exact .kept (by rw [ht]; rfl) (by rw [ht]; rfl)
  | status hm ht => rw [ht, target_eq_status hm]; exact writeStatus_errorCase s v
  | writeK j _ ht =>
    rcases writeK_cases s j v with ⟨c, hw⟩ | ⟨_, x, hw⟩
    · exact ht ▸ hw ▸ raise_errorCase s c
    · exact .kept (by rw [ht, hw]) (by rw [ht, hw])
  | writeF i j _ ht =>
    rcases writeF_cases s i j v with ⟨c, hw⟩ | ⟨_, x, _, hw⟩
    · exact ht ▸ hw ▸ raise_errorCase s c
    · exact .kept (by rw [ht, hw]; rfl) (by rw [ht, hw]; rfl)
  | issued i _ _ _ ht => exact .kept (by rw [ht]; rfl) (by rw [ht]; rfl)
  | turnedAway _ _ ht => exact ht ▸ raise_errorCase s .cmdBusy
  | illegal _ _ _ ht => exact ht ▸ raise_errorCase s .illegalCmd

theorem EventCase.errorCase (h : EventCase s t e) : ErrorCase s t e := by
  cases h with
  | read _ _ _ _ _ _ ht _ => exact .kept (by rw [ht]) (by rw [ht])
  | write _ _ _ _ _ hw => exact hw.errorCase
  | passed _ ht => exact .kept (by rw [ht]) (by rw [ht])
  | completed c _ _ ht => exact ht ▸ retire_applyResult_errorCase s c.result
  | asserted ht => exact .reset rfl (by rw [ht]; rfl) (by rw [ht]; rfl)
  | released ht => exact .kept (by rw [ht]) (by rw [ht])

/-- Settles O45: by what the entry does to ERR and ERRCODE. -/
theorem errorIsSticky : Obligations.ErrorIsSticky := by
  intro s t h
  obtain ⟨e, es, he, hc⟩ := step_takes h
  cases hc.errorCase with
  | kept herr hcode => exact ⟨fun h1 => .inl ⟨herr.trans h1, hcode⟩, fun h0 hz => .inl ⟨herr.trans h0, hcode.trans hz⟩⟩
  | raised c h0 herr hcode _ =>
    exact ⟨fun h1 => absurd (h0.symm.trans h1) (by decide), fun _ _ => .inr ⟨herr, c, hcode⟩⟩
  | acknowledged v hev hv herr hcode =>
    subst hev
    exact ⟨fun _ => .inr ⟨herr, hcode, .inl ⟨v, es, he.inputs_eq nofun, hv⟩⟩, fun _ _ => .inl ⟨herr, hcode⟩⟩
  | reset hev herr hcode =>
    subst hev
    exact ⟨fun _ => .inr ⟨herr, hcode, .inr ⟨es, he.inputs_eq nofun⟩⟩, fun _ _ => .inl ⟨herr, hcode⟩⟩

/-! ## BUSY and DONE -/

/-- Everything that the entry `e` can do to BUSY and DONE (R41, R42, R217). -/
inductive LifecycleCase (s t : State) (e : Event) : Prop
  | kept (hb : t.busy = s.busy) (hd : t.done = s.done)
  | accepted (w : Word) (i : Instr) (hev : e = .write .word 0x00C w) (hw : decode w = .ok i) (hs : s.busy = false)
      (hb : t.busy = true) (hd : t.done = false)
  | acknowledged (v : Word) (hev : e = .write .word 0x008 v) (hv : v.getLsbD 1 = true) (hb : t.busy = s.busy)
      (hd : t.done = false)
  | completed (hev : e = .engine) (hs : s.busy = true) (hb : t.busy = false) (hd : t.done = true) (hp : t.pend = none)
  | reset (hev : e = .rst true) (hb : t.busy = false) (hd : t.done = false)

theorem writeStatus_lifecycleCase (s : State) (v : Word) :
    LifecycleCase s (s.writeStatus v) (.write .word 0x008 v) := by
  cases hv : v.getLsbD 1 with
  | true => exact .acknowledged v rfl hv (by simp) (by rw [writeStatus_done, hv]; rfl)
  | false => exact .kept (by simp) (by rw [writeStatus_done, hv]; rfl)

theorem WriteCase.lifecycleCase (h : WriteCase s t off v) : LifecycleCase s t (.write .word off v) := by
  cases h with
  | status hm ht => rw [ht, target_eq_status hm]; exact writeStatus_lifecycleCase s v
  | issued i hm hd hb ht => exact .accepted v i (by rw [target_eq_cmd hm]) hd hb (by rw [ht]; rfl) (by rw [ht]; rfl)
  | _ => exact .kept (by simp [*]) (by simp [*])

theorem EventCase.lifecycleCase (h : EventCase s t e) : LifecycleCase s t e := by
  cases h with
  | read _ _ _ _ _ _ ht _ => exact .kept (by rw [ht]) (by rw [ht])
  | write _ _ _ _ _ hw => exact hw.lifecycleCase
  | passed _ ht => exact .kept (by rw [ht]) (by rw [ht])
  | completed c hb _ ht => exact .completed rfl hb (by rw [ht]; rfl) (by rw [ht]; rfl) (by rw [ht]; rfl)
  | asserted ht => exact .reset rfl (by rw [ht]; rfl) (by rw [ht]; rfl)
  | released ht => exact .kept (by rw [ht]) (by rw [ht])

/-- Settles O46: by what the entry does to BUSY and DONE. -/
theorem busyAndDoneTransitions : Obligations.BusyAndDoneTransitions := by
  intro s t h
  obtain ⟨e, es, he, hc⟩ := step_takes h
  cases hc.lifecycleCase with
  | kept hb hd =>
    change t.busy = s.busy at hb
    change t.done = s.done at hd
    simp +contextual [hb, hd]
  | accepted w i hev hw hs hb hd =>
    subst hev
    exact ⟨fun _ _ => ⟨hd, w, es, i, he.inputs_eq nofun, hw⟩, by simp [hb], by simp [hd], fun _ _ => .inl ⟨hs, hb⟩⟩
  | acknowledged v hev hv hb hd =>
    subst hev
    change t.busy = s.busy at hb
    exact ⟨by simp +contextual [hb], by simp +contextual [hb], by simp [hd],
      fun _ _ => .inr (.inl ⟨v, es, he.inputs_eq nofun, hv⟩)⟩
  | completed hev hs hb hd hp =>
    subst hev
    exact ⟨by simp [hb], fun _ _ => .inl ⟨he.engineTurn, hd, hp⟩, fun _ _ => ⟨he.engineTurn, hs, hb⟩, by simp [hd]⟩
  | reset hev hb hd =>
    subst hev
    have hi := he.inputs_eq nofun
    exact ⟨by simp [hb], fun _ _ => .inr ⟨es, hi⟩, by simp [hd], fun _ _ => .inr (.inr ⟨es, hi⟩)⟩

end Changes

end Sys2Proof.Machine
end

section
/-! What single steps do: reset, reads and writes of the control registers, a command word; and the interrupt output. -/

namespace Sys2Proof.Machine

section Steps

variable {s : State} {es : List Event} {v : Word}

/-! ## A command word and the control registers' writes -/

theorem step_cmd (hr : s.rst = false) (hi : s.inputs = .write .word 0x00C v :: es) :
    step s = issueCommand v (s.schedule es) := step_write hr hi (by decide) (by decide)

theorem step_writeCtrl (hr : s.rst = false) (hi : s.inputs = .write .word 0x004 v :: es) :
    step s = .next ((s.schedule es).writeCtrl v) := step_write hr hi (by decide) (by decide)

theorem step_writeStatus (hr : s.rst = false) (hi : s.inputs = .write .word 0x008 v :: es) :
    step s = .next ((s.schedule es).writeStatus v) := step_write hr hi (by decide) (by decide)

/-- A STATUS write as one update (R40, R68). -/
theorem writeStatus_eq (s : State) (v : Word) :
    s.writeStatus v = { s with done := s.done && !(v.getLsbD 1), err := s.err && !(v.getLsbD 2),
                               errcode := if v.getLsbD 2 then 0 else s.errcode } := by
  unfold State.writeStatus
  cases v.getLsbD 1 <;> cases v.getLsbD 2 <;> simp [State.ackDone, State.ackError]

/-- Settles O8: the port hands a CMD write to the decoder. -/
theorem stepRunsDecodedCommand : Obligations.StepRunsDecodedCommand := by
  intro s w es i hr hi hw
  rw [step_cmd hr hi, issueCommand, hw]
  rfl

/-- Settles O56: each write as one update of the state. -/
theorem controlRegisterWrites : Obligations.ControlRegisterWrites := by
  intro s es v hr
  constructor
  · intro hi
    exact step_writeCtrl hr hi
  · intro hi
    rw [step_writeStatus hr hi, writeStatus_eq]
    rfl

/-! ## The control registers' reads -/

/-- A read of a target that shows a word records that word (R67). -/
theorem step_read_shown {off : Nat} {w : Word} (hr : s.rst = false) (hi : s.inputs = .read .word off :: es)
    (ho : off < 0x1000) (ha : off % 4 = 0) (hw : s.readTarget (target off) = some w) :
    step s = .next { s with inputs := es, replies := ⟨off, w⟩ :: s.replies } := by
  have hw' : (s.schedule es).readTarget (target off) = some w := hw
  rw [step_read hr hi ho ha, memRead, hw']
  rfl

/-- An append of bit vectors as a sum of numbers. -/
theorem toNat_append_eq_add {n m : Nat} (x : BitVec n) (y : BitVec m) :
    (x ++ y).toNat = x.toNat * 2 ^ m + y.toNat := by
  rw [BitVec.toNat_append, ← Nat.shiftLeft_add_eq_or_of_lt y.isLt, Nat.shiftLeft_eq]

/-- The ID word as a number (R47). -/
theorem idWord_eq (hM : s.params.M < 256) : s.idWord = BitVec.ofNat 32 (0x01101E00 + s.params.M) := by
  apply BitVec.eq_of_toNat_eq
  simp only [State.idWord, toNat_append_eq_add, BitVec.toNat_ofNat]
  omega

theorem getLsbD_bitWord (b : Bool) (n : Nat) : (bitWord b).getLsbD n = (decide (n = 0) && b) := by
  cases b <;> simp [bitWord]

/-- The four flags of STATUS (R41 to R44). -/
theorem getLsbD_statusWord_flags (s : State) :
    s.statusWord.getLsbD 0 = s.busy ∧ s.statusWord.getLsbD 1 = s.done ∧ s.statusWord.getLsbD 2 = s.err ∧
      s.statusWord.getLsbD 3 = s.z := by
  simp [State.statusWord, getLsbD_bitWord, -BitVec.getLsbD_eq_getElem]

/-- Above the flags STATUS holds ERRCODE from bit 8 on, and zeros (R45). -/
theorem getLsbD_statusWord_of_ge (s : State) {n : Nat} (h4 : 4 ≤ n) (hn : n < 32) :
    s.statusWord.getLsbD n = (!decide (n < 8) && s.errcode.getLsbD (n - 8)) := by
  simp only [State.statusWord, BitVec.getLsbD_or, BitVec.getLsbD_shiftLeft, getLsbD_bitWord]
  simp [hn, show n ≠ 0 by omega, show ¬ n ≤ 1 by omega, show ¬ n ≤ 2 by omega, show ¬ n ≤ 3 by omega,
    show n - 8 < 32 by omega, Nat.sub_eq_zero_iff_le]

theorem getLsbD_statusWord_errcode (s : State) {n : Nat} (hn : n < 4) :
    s.statusWord.getLsbD (8 + n) = s.errcode.getLsbD n := by
  rw [getLsbD_statusWord_of_ge s (by omega) (by omega)]
  simp

theorem getLsbD_statusWord_reserved (s : State) {n : Nat} (hn : n < 32) (h : (4 ≤ n ∧ n ≤ 7) ∨ 12 ≤ n) :
    s.statusWord.getLsbD n = false := by
  rw [getLsbD_statusWord_of_ge s (by omega) hn]
  rcases h with ⟨_, h⟩ | h
  · simp [show n < 8 by omega]
  · simp [BitVec.getLsbD_of_ge s.errcode (n - 8) (by omega)]

/-- Settles O52: each offset with the word its target shows. -/
theorem controlRegisterReads : Obligations.ControlRegisterReads := by
  intro s es off hr hi
  refine ⟨?_, ?_, ?_, ?_⟩
  · rintro rfl hM
    exact step_read_shown hr hi (by decide) (by decide) (congrArg some (idWord_eq hM))
  · rintro rfl
    exact step_read_shown hr hi (by decide) (by decide) rfl
  · rintro rfl
    obtain ⟨hbusy, hdone, herr, hz⟩ := getLsbD_statusWord_flags s
    exact ⟨s.statusWord, step_read_shown hr hi (by decide) (by decide) rfl, hbusy, hdone, herr, hz,
      fun _ hn => getLsbD_statusWord_errcode s hn, fun _ hn h => getLsbD_statusWord_reserved s hn h⟩
  · rintro rfl
    exact step_read_shown hr hi (by decide) (by decide) rfl

/-! ## Reset -/

/-- Settles O41: the reset step as one update. -/
theorem resetStepClearsEverything : Obligations.ResetStepClearsEverything := by
  intro s es hi
  exact ⟨_, step_assert hi, freg_toReset (s.schedule es), rfl, rfl, rfl, rfl, rfl, rfl, rfl, rfl, rfl, rfl, idWord_eq,
    rfl, rfl, rfl⟩

end Steps

/-! ## The interrupt output -/

section Interrupt

variable {s t : State}

theorem irq_eq_true_iff (s : State) : s.irq = true ↔ s.ie = true ∧ (s.done = true ∨ s.err = true) := by
  simp [State.irq]

theorem irq_of_err (h : s.err = true) : s.irq = s.ie := by simp [State.irq, h]

theorem irq_of_done (h : s.done = true) : s.irq = s.ie := by simp [State.irq, h]

theorem step_raises_keeps_ie (h : step s = .next t) (hs : s.err = false) (ht : t.err = true) : t.ie = s.ie := by
  obtain ⟨e, es, _, hc⟩ := step_takes h
  cases hc.errorCase with
  | raised _ _ _ _ hie => exact hie
  | kept he _ => exact absurd ((ht.symm.trans he).trans hs) (by decide)
  | acknowledged _ _ _ he _ => exact absurd (ht.symm.trans he) (by decide)
  | reset _ he _ => exact absurd (ht.symm.trans he) (by decide)

theorem CompletesWith.eq_retire {i : Instr} {r : Result} (h : CompletesWith i s r t) :
    t = ((s.accepted i r).applyResult r).retire := by
  obtain ⟨_, he⟩ := h
  rcases engineStep_next he with ⟨hb, _⟩ | ⟨_, c, hp, ht⟩
  · cases hb
  · cases hp
    exact ht

/-- Settles O49: the output as a function of IE, DONE and ERR, at each kind of step. -/
theorem interruptFollowsCompletion : Obligations.InterruptFollowsCompletion := by
  refine ⟨irq_eq_true_iff, ?_, ?_, ?_⟩
  · intro s t h hs ht
    rw [irq_of_err ht, step_raises_keeps_ie h hs ht]
  · intro i s t r h
    rw [h.eq_retire, irq_of_done (retire_done _)]
    simp
  · rintro s v es hr (⟨hi, h1, h2⟩ | ⟨hi, h0⟩)
    · refine ⟨_, step_writeStatus hr hi, ?_⟩
      rw [writeStatus_eq, h1, h2]
      simp [State.irq]
    · refine ⟨_, step_writeCtrl hr hi, ?_⟩
      rw [State.irq, writeCtrl_ie, h0, Bool.false_and]

end Interrupt

end Sys2Proof.Machine
end

section
/-! The host bus (20_memory.md R60 to R74): which accesses the port refuses, what reads of the register window and of
its reserved offsets answer, and that no access disturbs a command in flight. -/

namespace Sys2Proof.Machine

section Accesses

variable {s t : State} {es : List Event} {off : Nat} {v : Word}

/-! ## Refused accesses -/

/-- A host access that the port refuses stops the step with that refusal (R61, R62, R240). -/
theorem step_refused {e : Event} {z : AccessSize} {r : Refusal} (hi : s.inputs = e :: es)
    (he : e = .read z off ∨ ∃ v, e = .write z off v) (hp : portRefusal z off s = some r) : step s = .refused r := by
  have hp' : portRefusal z off (s.schedule es) = some r := hp
  rw [step_cons hi]
  rcases he with rfl | ⟨v, rfl⟩ <;> rw [takeEvent, hostAccess, hp']

/-- Settles O57: the port's four tests, in the order in which it makes them. -/
theorem unportableAccessesAreRefused : Obligations.UnportableAccessesAreRefused := by
  intro s e es z off hi he
  refine ⟨fun hr => ?_, fun hr hz => ?_, fun hr hz ho => ?_, fun hr hz ho ha => ?_⟩
  all_goals apply step_refused hi he
  · simp [portRefusal, hr]
  · simp [portRefusal, hr, hz]
  · simp [portRefusal, hr, hz, Nat.not_lt.2 ho]
  · simp [portRefusal, hr, hz, ho, ha]

/-! ## Reads of the words of F and K -/

/-- The offset of a word of K or of F is one that the port carries (R63). -/
theorem wordOffset_onPort {j : Fin 8}
    (h : off = 0x040 + 4 * j.val ∨ ∃ i : FReg, off = 0x100 + 0x20 * i.val + 4 * j.val) :
    off < 0x1000 ∧ off % 4 = 0 := by
  rcases h with rfl | ⟨i, rfl⟩ <;> omega

/-- An idle block shows the words of K and of F (R67). -/
theorem readTarget_word_of_idle {j : Fin 8} {x : BitVec 240} (hb : s.busy = false)
    (h : (off = 0x040 + 4 * j.val ∧ x = s.K) ∨ ∃ i : FReg, off = 0x100 + 0x20 * i.val + 4 * j.val ∧ x = s.F[i]) :
    s.readTarget (target off) = some (wordAt (view x) j) := by
  rcases h with ⟨rfl, rfl⟩ | ⟨i, rfl, rfl⟩
  · simp [target_kOffset, State.readTarget, hb]
  · simp [target_fOffset, State.readTarget, hb, State.freg]

/-- A busy block shows none of them (R70). -/
theorem readTarget_word_of_busy {j : Fin 8} (hb : s.busy = true)
    (h : off = 0x040 + 4 * j.val ∨ ∃ i : FReg, off = 0x100 + 0x20 * i.val + 4 * j.val) :
    s.readTarget (target off) = none := by
  rcases h with rfl | ⟨i, rfl⟩
  · simp [target_kOffset, State.readTarget, hb]
  · simp [target_fOffset, State.readTarget, hb]

/-- Settles O50: the word shown is the register's view at `j`. -/
theorem idleReadsReturnRegisterWords : Obligations.IdleReadsReturnRegisterWords := by
  intro s es j off x hr hb hi hx
  obtain ⟨ho, ha⟩ := wordOffset_onPort (hx.imp And.left (Exists.imp fun _ => And.left))
  exact ⟨wordAt (view x) j, step_read_shown hr hi ho ha (readTarget_word_of_idle hb hx),
    fun n hn => getLsbD_wordAt_view x j n hn⟩

/-- A read of a target that shows no word records the next free draw (R70). -/
theorem step_read_drawn (hr : s.rst = false) (hi : s.inputs = .read .word off :: es) (ho : off < 0x1000)
    (ha : off % 4 = 0) (hw : s.readTarget (target off) = none) :
    step s = .next { s with inputs := es, replies := ⟨off, Config.busyRead s.draws⟩ :: s.replies,
                            draws := s.draws + 1 } := by
  have hw' : (s.schedule es).readTarget (target off) = none := hw
  rw [step_read hr hi ho ha, memRead, hw']
  rfl

/-- Settles O51: a busy block shows no word of F or K, so the answer is drawn. -/
theorem busyReadsAreFreeDraws : Obligations.BusyReadsAreFreeDraws := by
  intro s es j off hr hb hi hoff
  obtain ⟨ho, ha⟩ := wordOffset_onPort hoff
  exact step_read_drawn hr hi ho ha (readTarget_word_of_busy hb hoff)

/-! ## Reserved offsets -/

/-- The reserved offsets of the map (R63). -/
theorem target_eq_reserved (h : (0x010 ≤ off ∧ off ≤ 0x03C) ∨ (0x060 ≤ off ∧ off ≤ 0x0FC) ∨ 0x300 ≤ off) :
    target off = .reserved := by
  unfold target
  repeat rw [if_neg (by omega)]

/-- A write to ID or to a reserved offset passes without effect (R69). -/
theorem memWrite_ignored (h : target off = .id ∨ target off = .reserved) : memWrite off v s = .next s := by
  rcases h with h | h <;> rw [memWrite, h]

/-- Settles O53: offset 0 is ID, the others are reserved. -/
theorem reservedOffsetsAreInert : Obligations.ReservedOffsetsAreInert := by
  intro s es off v hr ha ho hoff
  have htarget : off ≠ 0 → target off = .reserved := fun h0 => target_eq_reserved (by omega)
  constructor
  · intro hi h0
    exact step_read_shown hr hi ho ha (by rw [htarget h0]; rfl)
  · intro hi
    have hignored : target off = .id ∨ target off = .reserved := by
      rcases eq_or_ne off 0 with rfl | h0
      · exact .inl rfl
      · exact .inr (htarget h0)
    rw [step_write hr hi ho ha, memWrite_ignored hignored]
    rfl

/-! ## Accesses while a command is in flight -/

/-- While a command is in flight a write of a word of K is discarded (R71). -/
theorem writeK_of_busy (hb : s.busy = true) (j : Fin 8) (v : Word) : s.writeK j v = s.raise .writeBusy := by
  simp [State.writeK, hb]

/-- While a command is in flight a write of a word of F is discarded (R71). -/
theorem writeF_of_busy (hb : s.busy = true) (i : FReg) (j : Fin 8) (v : Word) :
    s.writeF i j v = s.raise .writeBusy := by
  simp [State.writeF, hb]

theorem raise_sameCommand (s : State) (c : ErrorCode) : s.SameCommand (s.raise c) :=
  ⟨by simp, by simp, by simp, by simp, by simp⟩

/-- No host write touches a command in flight or what it depends on (R71, R211, R217). -/
theorem WriteCase.sameCommand (h : WriteCase s t off v) (hb : s.busy = true) : s.SameCommand t := by
  cases h with
  | ignored _ ht => exact ht ▸ ⟨rfl, rfl, rfl, rfl, rfl⟩
  | ctrl _ ht => exact ht ▸ ⟨rfl, rfl, rfl, rfl, rfl⟩
  | status _ ht => exact ht ▸ ⟨by simp, by simp, by simp, by simp, by simp⟩
  | writeK j _ ht => exact ht ▸ writeK_of_busy hb j v ▸ raise_sameCommand s _
  | writeF i j _ ht => exact ht ▸ writeF_of_busy hb i j v ▸ raise_sameCommand s _
  | issued _ _ _ hidle => exact absurd (hb.symm.trans hidle) (by decide)
  | turnedAway _ _ ht => exact ht ▸ raise_sameCommand s _
  | illegal _ hidle => exact absurd (hb.symm.trans hidle) (by decide)

/-- Settles O47: a read changes only what belongs to the model, and a write that finds the block busy leaves the command
in flight alone. -/
theorem hostCannotDisturbCommand : Obligations.HostCannotDisturbCommand := by
  intro s t e es hb hi he h
  have hc : EventCase (s.schedule es) t e := takeEvent_next (step_cons hi ▸ h)
  cases hc with
  | read _ _ _ _ _ _ ht => exact ht ▸ ⟨rfl, rfl, rfl, rfl, hb⟩
  | write _ _ _ _ _ hw =>
    obtain ⟨_, hF, hK, hbusy, hpend⟩ := hw.sameCommand hb
    exact ⟨hF, hK, hw.z_eq, hpend, hbusy.trans hb⟩
  | _ => simp at he

end Accesses

end Sys2Proof.Machine
end

section
/-! The writes of the words of F and K (20_memory.md R64, R65, R68, R71 to R73), the load of a register by eight of
them (R104), and the words of a byte buffer (R66). -/

namespace Sys2Proof.Machine

/-- A register's value with its word `j` replaced by `w`, the bits that are not stored dropped (R64, R65). -/
def replaceWord (x : BitVec 240) (j : Fin 8) (w : Word) : BitVec 240 := (putWord (view x) j w).setWidth 240

theorem getLsbD_replaceWord (x : BitVec 240) (j : Fin 8) (w : Word) {n : Nat} (hn : n < 240) :
    (replaceWord x j w).getLsbD n =
      if 32 * j.val ≤ n ∧ n < 32 * j.val + 32 then w.getLsbD (n - 32 * j.val) else x.getLsbD n := by
  have hview : (view x).getLsbD n = x.getLsbD n := by simp [view]; omega
  rw [replaceWord, BitVec.getLsbD_setWidth, getLsbD_putWord _ _ _ _ (by omega), hview]
  simp [hn]

section Writes

variable {s : State} {es : List Event} {i : FReg} {j : Fin 8} {v : Word}

/-! ## A word of K -/

theorem step_writeK (hr : s.rst = false) (hi : s.inputs = .write .word (0x040 + 4 * j.val) v :: es) :
    step s = .next ((s.schedule es).writeK j v) := by
  rw [step_write hr hi (by omega) (by omega), memWrite, target_kOffset]

/-- Some bit of 31:16 is set exactly in the words from 2^16 on. -/
theorem highHalf_ne_zero_iff (v : Word) : v.extractLsb' 16 16 ≠ 0 ↔ 2 ^ 16 ≤ v.toNat := by
  rw [ne_eq, ← BitVec.toNat_inj, BitVec.extractLsb'_toNat, Nat.shiftRight_eq_div_pow]
  simp only [BitVec.ofNat_eq_ofNat, BitVec.toNat_ofNat]
  omega

theorem writeK_of_outOfRange (hb : s.busy = false) (h : j = 7 ∧ 2 ^ 16 ≤ v.toNat) :
    s.writeK j v = s.raise .range := by
  rw [← highHalf_ne_zero_iff] at h
  rw [State.writeK, if_neg (by simp [hb]), if_pos h]

theorem writeK_of_inRange (hb : s.busy = false) (h : ¬ (j = 7 ∧ 2 ^ 16 ≤ v.toNat)) :
    s.writeK j v = { s with K := replaceWord s.K j v } := by
  rw [← highHalf_ne_zero_iff] at h
  rw [State.writeK, if_neg (by simp [hb]), if_neg h]
  rfl

/-- Settles O55: the three ways in which a write of a word of K ends. -/
theorem scalarWordWrites : Obligations.ScalarWordWrites := by
  intro s es j v hr hi
  rw [step_writeK hr hi]
  refine ⟨fun hb => ?_, fun hb h => ?_,
    fun hb h => ⟨replaceWord s.K j v, ?_, fun n hn => getLsbD_replaceWord _ _ _ hn⟩⟩
  · rw [writeK_of_busy (s := s.schedule es) hb, raise_eq]
    rfl
  · rw [writeK_of_outOfRange (s := s.schedule es) hb h, raise_eq]
    rfl
  · rw [writeK_of_inRange (s := s.schedule es) hb h]
    rfl

/-! ## A word of a field register -/

theorem step_writeF (hr : s.rst = false) (hi : s.inputs = .write .word (0x100 + 0x20 * i.val + 4 * j.val) v :: es) :
    step s = .next ((s.schedule es).writeF i j v) := by
  rw [step_write hr hi (by omega) (by omega), memWrite, target_fOffset]

/-- Every bit of a canonical value stands below position M (R16). -/
theorem lt_of_canonical {p : Params} {x : FieldElem} (hx : p.Canonical x) {n : Nat} (h : x.getLsbD n = true) :
    n < p.M := by
  have hn : 2 ^ n < 2 ^ p.M := (Nat.ge_two_pow_of_testBit h).trans_lt hx
  exact (Nat.pow_lt_pow_iff_right (by decide)).1 hn

/-- Over a canonical register the new view has a bit at M or above exactly when the word written has one there (R72). -/
theorem putWord_outOfRange_iff {p : Params} {x : FieldElem} (hx : p.Canonical x) :
    putWord (view x) j v >>> p.M ≠ 0 ↔ ∃ n < 32, v.getLsbD n = true ∧ p.M ≤ 32 * j.val + n := by
  rw [shiftRight_ne_zero]
  constructor
  · rintro ⟨n, hM, hn, hbit⟩
    rw [getLsbD_putWord _ _ _ _ hn] at hbit
    split at hbit
    · exact ⟨n - 32 * j.val, by omega, hbit, by omega⟩
    · have hxn : x.getLsbD n = true := by simpa [view, hn] using hbit
      exact absurd (lt_of_canonical hx hxn) (by omega)
  · rintro ⟨n, hn, hbit, hM⟩
    refine ⟨32 * j.val + n, hM, by omega, ?_⟩
    rw [getLsbD_putWord _ _ _ _ (by omega), if_pos (by omega), Nat.add_sub_cancel_left, hbit]

theorem writeF_of_outOfRange (hc : s.params.Canonical (s.freg i)) (hb : s.busy = false)
    (h : ∃ n < 32, v.getLsbD n = true ∧ s.params.M ≤ 32 * j.val + n) : s.writeF i j v = s.raise .range := by
  rw [State.writeF, if_neg (by simp [hb]), if_pos ((putWord_outOfRange_iff hc).2 h)]

theorem writeF_of_inRange (hc : s.params.Canonical (s.freg i)) (hb : s.busy = false)
    (h : ∀ n < 32, v.getLsbD n = true → 32 * j.val + n < s.params.M) :
    s.writeF i j v = s.setFreg i (replaceWord (s.freg i) j v) := by
  have hin : ¬ putWord (view (s.freg i)) j v >>> s.params.M ≠ 0 := by
    rw [putWord_outOfRange_iff hc]
    rintro ⟨n, hn, hbit, hM⟩
    exact absurd (h n hn hbit) (by omega)
  rw [State.writeF, if_neg (by simp [hb]), if_neg hin]
  rfl

/-- Settles O54: the three ways in which a write of a word of a field register ends. -/
theorem fieldWordWrites : Obligations.FieldWordWrites := by
  intro s es i j v hs hr hi
  have hc := (hs.schedule es).canonical i
  rw [step_writeF hr hi]
  refine ⟨fun hb => ?_, fun hb h => ?_,
    fun hb h => ⟨replaceWord s.F[i] j v, ?_, fun n hn => getLsbD_replaceWord _ _ _ hn⟩⟩
  · rw [writeF_of_busy (s := s.schedule es) hb, raise_eq]
    rfl
  · rw [writeF_of_outOfRange hc hb h, raise_eq]
    rfl
  · rw [writeF_of_inRange hc hb h]
    rfl

/-! ## Loading a register -/

/-- The value of a register that holds `x` after the words of `v` at the places `js` have been written to it. -/
def copyWords (x v : BitVec 240) (js : List (Fin 8)) : BitVec 240 :=
  js.foldl (fun y j => replaceWord y j (wordAt (view v) j)) x

theorem copyWords_cons (x v : BitVec 240) (j : Fin 8) (js : List (Fin 8)) :
    copyWords x v (j :: js) = copyWords (replaceWord x j (wordAt (view v) j)) v js := rfl

/-- A word written covers its 32 bits, and leaves the others. -/
theorem getLsbD_copyWords (x v : BitVec 240) (js : List (Fin 8)) {n : Nat} (hn : n < 240) :
    (copyWords x v js).getLsbD n = if n / 32 ∈ js.map Fin.val then v.getLsbD n else x.getLsbD n := by
  induction js generalizing x with
  | nil => rfl
  | cons j js ih =>
    have hhead : (replaceWord x j (wordAt (view v) j)).getLsbD n =
        if n / 32 = j.val then v.getLsbD n else x.getLsbD n := by
      rw [getLsbD_replaceWord x j _ hn]
      by_cases h : n / 32 = j.val
      · rw [if_pos (by omega), if_pos h, getLsbD_wordAt_view _ _ _ (by omega), Nat.add_sub_cancel' (by omega)]
      · rw [if_neg (by omega), if_neg h]
    rw [copyWords_cons, ih, hhead]
    by_cases h : n / 32 ∈ js.map Fin.val
    · simp [h]
    · simp [h]

/-- All eight words of `v` make the register `v`, whatever it held. -/
theorem copyWords_finRange (x v : BitVec 240) : copyWords x v (List.finRange 8) = v := by
  apply BitVec.eq_of_getLsbD_eq
  intro n hn
  have hmem : n / 32 ∈ (List.finRange 8).map Fin.val :=
    List.mem_map.2 ⟨⟨n / 32, by omega⟩, List.mem_finRange _, rfl⟩
  rw [getLsbD_copyWords x v _ hn, if_pos hmem]

/-- A word of a canonical value sets no bit at M or above. -/
theorem wordAt_inRange {p : Params} {x : FieldElem} (hx : p.Canonical x) (j : Fin 8) :
    ∀ n < 32, (wordAt (view x) j).getLsbD n = true → 32 * j.val + n < p.M := by
  intro n hn h
  rw [getLsbD_wordAt_view x j n hn] at h
  exact lt_of_canonical hx h

theorem setFreg_schedule_eq_self (hi : s.inputs = es) (i : FReg) : (s.schedule es).setFreg i (s.freg i) = s := by
  subst hi
  cases s
  simp [State.setFreg, State.schedule, State.freg]

theorem setFreg_setFreg (s : State) (i : FReg) (x y : FieldElem) : (s.setFreg i x).setFreg i y = s.setFreg i y := by
  simp [State.setFreg]

/-- The writes of the words of `v` at the places `js` of F[i]. -/
def wordWrites (i : FReg) (v : FieldElem) (js : List (Fin 8)) : List Event :=
  js.map fun j => wr (fOffset i j) (wordAt (view v) j)

theorem ldF_eq_wordWrites (i : FReg) (v : FieldElem) : ldF i v = wordWrites i v (List.finRange 8) := rfl

/-- The word writes of a canonical value, one after the other (R64, R68). -/
theorem run_wordWrites {x : FieldElem} (js : List (Fin 8)) (hs : s.Inv) (hr : s.rst = false) (hb : s.busy = false)
    (hx : s.params.Canonical x) (hi : s.inputs = wordWrites i x js ++ es) :
    Sys2Proof.core.run js.length s = .next ((s.schedule es).setFreg i (copyWords (s.freg i) x js)) := by
  induction js generalizing s with
  | nil =>
    rw [List.length_nil, core_run_zero]
    exact congrArg _ (setFreg_schedule_eq_self hi i).symm
  | cons j js ih =>
    have hhead : s.inputs = .write .word (0x100 + 0x20 * i.val + 4 * j.val) (wordAt (view x) j) ::
        (wordWrites i x js ++ es) := hi
    have hstep : step s = .next ((s.schedule (wordWrites i x js ++ es)).setFreg i
        (replaceWord (s.freg i) j (wordAt (view x) j))) := by
      rw [step_writeF hr hhead,
        writeF_of_inRange ((hs.schedule (wordWrites i x js ++ es)).canonical i) hb (wordAt_inRange hx j)]
      rfl
    have hInv := (stepKeepsInvariant s _ hs hstep).1
    rw [List.length_cons, core_run_next _ hstep, ih hInv hr hb hx rfl, freg_setFreg_same, copyWords_cons]
    exact congrArg _ (setFreg_setFreg (s.schedule es) i _ _)

/-- Settles O58: the eight words cover the register. -/
theorem eightWritesLoadARegister : Obligations.EightWritesLoadARegister := by
  intro s es i v hs hr hb hv hi
  rw [ldF_eq_wordWrites] at hi
  have hrun := run_wordWrites (List.finRange 8) hs hr hb hv hi
  rw [List.length_finRange, copyWords_finRange] at hrun
  exact hrun

end Writes

/-! ## Words of a byte buffer -/

/-- Byte `b` of the buffer holds the value's bits from `8·(29-b)` on (R66). -/
theorem getLsbD_bufferOf (v : BitVec 240) {b n : Nat} (hb : b < 30) (hn : n < 8) :
    (bufferOf v)[b].getLsbD n = v.getLsbD (8 * (29 - b) + n) := by
  simp [bufferOf, bufferByte, hn]

/-- Word 7 takes the two most significant bytes, under 16 zeros. -/
theorem getLsbD_bufferWord_seven (v : BitVec 240) (n : Nat) :
    (bufferWord (bufferOf v) 7).getLsbD n = v.getLsbD (224 + n) := by
  have hword : bufferWord (bufferOf v) 7 = 0#16 ++ ((bufferOf v)[0] ++ (bufferOf v)[1]) := rfl
  rw [hword, BitVec.getLsbD_append, BitVec.getLsbD_append]
  split_ifs with h16 h8
  · rw [getLsbD_bufferOf v _ h8]
  · rw [getLsbD_bufferOf v _ (by omega)]
    congr 1
    omega
  · rw [BitVec.getLsbD_zero, BitVec.getLsbD_of_ge v _ (by omega)]

/-- The words below it take four bytes each. -/
theorem getLsbD_bufferWord_of_ne_seven (v : BitVec 240) {j : Fin 8} (hj : j.val ≠ 7) {n : Nat} (hn : n < 32) :
    (bufferWord (bufferOf v) j).getLsbD n = v.getLsbD (32 * j.val + n) := by
  rw [bufferWord, if_neg hj]
  simp only [BitVec.getLsbD_append]
  split_ifs <;>
  · rw [getLsbD_bufferOf v _ (by omega)]
    congr 1
    omega

/-- Settles O59: byte by byte. -/
theorem bufferWordsAreRegisterWords : Obligations.BufferWordsAreRegisterWords := by
  intro v j n hn
  by_cases hj : j.val = 7
  · obtain rfl : j = 7 := Fin.ext hj
    exact getLsbD_bufferWord_seven v n
  · exact getLsbD_bufferWord_of_ne_seven v hj hn

end Sys2Proof.Machine
end

section
/-! The decoder against the encoder (30_encoding.md R91 to R100): the rows of the opcode table exclude each other, each
command's word is matched by a row that reads the command, and a row matches no other words. -/

namespace Sys2Proof

/-! ## The rows of the opcode table -/

/-- No two rows have the same opcode. -/
theorem opcodeTable_ops_nodup : (opcodeTable.map fun r => fieldOp r.mtch).Nodup := by decide

/-- Every row masks all six bits of OP. -/
theorem opcodeTable_mask_op : ∀ r ∈ opcodeTable, fieldOp r.mask = 0x3F := by decide

theorem fieldOp_and (w m : Word) : fieldOp (w &&& m) = fieldOp w &&& fieldOp m := by
  simp [fieldOp, BitVec.extractLsb'_and]

/-- A row matches only words with its own opcode. -/
theorem fieldOp_of_matches {r : Row} (hr : r ∈ opcodeTable) {w : Word} (h : r.matches w = true) :
    fieldOp w = fieldOp r.mtch := by
  have hall : fieldOp w &&& 0x3F = fieldOp w := BitVec.and_allOnes
  rw [← hall, ← opcodeTable_mask_op r hr, ← fieldOp_and, eq_of_beq h]

/-- At most one row matches a word. -/
theorem row_eq_of_matches {r r' : Row} (hr : r ∈ opcodeTable) (hr' : r' ∈ opcodeTable) {w : Word}
    (h : r.matches w = true) (h' : r'.matches w = true) : r = r' :=
  List.inj_on_of_nodup_map opcodeTable_ops_nodup hr hr'
    ((fieldOp_of_matches hr h).symm.trans (fieldOp_of_matches hr' h'))

/-- `Decode` of R99 without the table's order: some row matches the word and reads the command. -/
theorem decode_eq_ok_iff {w : Word} {i : Instr} :
    decode w = .ok i ↔ ∃ r ∈ opcodeTable, r.matches w = true ∧ r.read w = i := by
  unfold decode
  constructor
  · intro h
    split at h
    · rename_i r hr
      exact ⟨r, List.mem_of_find?_eq_some hr, List.find?_some (p := fun r : Row => r.matches w) hr, Except.ok.inj h⟩
    · cases h
  · rintro ⟨r, hr, hm, hi⟩
    obtain ⟨r', hfind⟩ : ∃ r', opcodeTable.find? (fun r => r.matches w) = some r' :=
      Option.isSome_iff_exists.1 (List.find?_isSome.2 ⟨r, hr, hm⟩)
    obtain rfl := row_eq_of_matches hr (List.mem_of_find?_eq_some hfind) hm
      (List.find?_some (p := fun r : Row => r.matches w) hfind)
    rw [hfind, ← hi]

/-- A word that no command has is illegal. -/
theorem exists_error_of_ne_ok {w : Word} (h : ∀ i, decode w ≠ .ok i) : ∃ r, decode w = .error r := by
  cases hw : decode w with
  | ok i => exact absurd hw (h i)
  | error r => exact ⟨r, rfl⟩

/-! ## From the command to its word -/

/-- The place of a command's row in the opcode table (R98). -/
def rowIndex : Instr → Fin 13
  | .zero _ => 0
  | .copy _ _ => 1
  | .isZero _ => 2
  | .add _ _ _ => 3
  | .mulx _ _ => 4
  | .mul _ _ _ => 5
  | .sqr _ _ => 6
  | .itpow _ _ _ => 7
  | .inv _ _ => 8
  | .pisinf _ => 9
  | .pdbl _ _ => 10
  | .padd _ _ _ => 11
  | .smul _ _ => 12

/-- A command's row of the opcode table. -/
def rowOf (i : Instr) : Row := opcodeTable[rowIndex i]

theorem rowOf_mem (i : Instr) : rowOf i ∈ opcodeTable := List.getElem_mem _

/-- Reading an operand undoes packing it. -/
theorem rowOf_read_encode (i : Instr) : (rowOf i).read (encode i) = i := by
  cases i <;> simp [rowOf, rowIndex, opcodeTable, encode]

/-- Bit 3 of a point field is 0 (R94). -/
theorem pregField_and_eight (i : PReg) : pregField i &&& 8 = 0 := by
  revert i
  decide

/-- A command's row masks nothing of the operands packed into the word but bit 3 of the point fields. -/
theorem rowOf_matches_encode (i : Instr) : (rowOf i).matches (encode i) = true := by
  have hpoint : ∀ p : PReg, pregField p &&& 8#4 = 0#4 := pregField_and_eight
  cases i <;>
    simp [rowOf, rowIndex, opcodeTable, encode, matches_packWord, fieldOp, fieldD, fieldA, fieldB, fieldImm, hpoint]

/-- Settles O1: the command's row matches its word and reads the command back. -/
theorem decodeOfEncode : Obligations.DecodeOfEncode :=
  fun i => decode_eq_ok_iff.2 ⟨rowOf i, rowOf_mem i, rowOf_matches_encode i, rowOf_read_encode i⟩

/-! ## From the word to its command -/

/-- Every row masks the reserved bits, and no row has one set in its match (R96). -/
theorem opcodeTable_reserved : ∀ r ∈ opcodeTable, r.mask &&& 0x00F000C0 = 0x00F000C0 ∧ r.mtch &&& 0x00F000C0 = 0 := by
  decide

theorem reserved_of_matches {r : Row} (hr : r ∈ opcodeTable) {w : Word} (h : r.matches w = true) :
    w &&& 0x00F000C0 = 0 := by
  obtain ⟨hmask, hmtch⟩ := opcodeTable_reserved r hr
  rw [← hmask, ← BitVec.and_assoc, eq_of_beq h, hmtch]

/-- A point field with bit 3 clear is the field of the point it names (R94). -/
theorem pregField_pregOf {v : BitVec 4} (h : v &&& 8 = 0) : pregField (pregOf v) = v := by
  revert v
  decide

/-- What a row matches is the word of the command it reads: the fields that the row masks are 0 or the opcode, and the
others are operands. -/
theorem encode_read_of_matches {r : Row} (hr : r ∈ opcodeTable) {w : Word} (h : r.matches w = true) :
    encode (r.read w) = w := by
  obtain ⟨op, d, a, b, imm, rfl⟩ : ∃ op d a b imm, packWord op d a b imm = w :=
    ⟨_, _, _, _, _, packWord_fields w (reserved_of_matches hr h)⟩
  have hop : ∀ o : BitVec 6, o &&& 63#6 = o := fun _ => BitVec.and_allOnes
  have hreg : ∀ v : BitVec 4, v &&& 15#4 = v := fun _ => BitVec.and_allOnes
  have himm : ∀ v : BitVec 8, v &&& 255#8 = v := fun _ => BitVec.and_allOnes
  rw [matches_packWord] at h
  simp only [opcodeTable, List.mem_cons, List.not_mem_nil, or_false] at hr
  rcases hr with rfl | rfl | rfl | rfl | rfl | rfl | rfl | rfl | rfl | rfl | rfl | rfl | rfl
  all_goals
    simp [fieldOp, fieldD, fieldA, fieldB, fieldImm, hop, hreg, himm] at h
    simp [encode, h, pregField_pregOf]

/-- Settles O2: the word is matched by the row that reads the command. -/
theorem encodeOfDecode : Obligations.EncodeOfDecode := by
  intro w i h
  obtain ⟨r, hr, hm, rfl⟩ := decode_eq_ok_iff.1 h
  exact encode_read_of_matches hr hm

/-! ## The table of R98 -/

/-- A row's match column is the opcode of the command the row reads. -/
theorem opcode_read {r : Row} (hr : r ∈ opcodeTable) (w : Word) : (r.read w).opcode = r.mtch.toNat := by
  simp only [opcodeTable, List.mem_cons, List.not_mem_nil, or_false] at hr
  rcases hr with rfl | rfl | rfl | rfl | rfl | rfl | rfl | rfl | rfl | rfl | rfl | rfl | rfl <;> rfl

theorem row_eq_of_mtch_eq {r r' : Row} (hr : r ∈ opcodeTable) (hr' : r' ∈ opcodeTable) (h : r.mtch = r'.mtch) :
    r = r' := List.inj_on_of_nodup_map opcodeTable_ops_nodup hr hr' (by rw [h])

/-- A word decodes to a command with a row's opcode exactly when that row matches it. -/
theorem decodes_to_opcode_iff {r : Row} (hr : r ∈ opcodeTable) {w : Word} :
    (∃ i, decode w = .ok i ∧ i.opcode = r.mtch.toNat) ↔ w &&& r.mask = r.mtch := by
  rw [← beq_iff_eq (a := w &&& r.mask)]
  constructor
  · rintro ⟨i, hi, hop⟩
    obtain ⟨r', hr', hm, rfl⟩ := decode_eq_ok_iff.1 hi
    rw [opcode_read hr', BitVec.toNat_inj] at hop
    rwa [← row_eq_of_mtch_eq hr' hr hop]
  · intro hm
    exact ⟨r.read w, decode_eq_ok_iff.2 ⟨r, hr, hm, rfl⟩, opcode_read hr w⟩

/-- The table of R98 as opcode, match and mask. -/
def Row.columns (r : Row) : Nat × Word × Word := (r.mtch.toNat, r.mtch, r.mask)

/-- Settles O3: the table written out in the statement is the decoder's. -/
theorem decodeFollowsMaskAndMatch : Obligations.DecodeFollowsMaskAndMatch := by
  intro w row hrow
  obtain ⟨r, hr, rfl⟩ : ∃ r ∈ opcodeTable, r.columns = row := List.mem_map.1 hrow
  exact decodes_to_opcode_iff hr

/-! ## Illegal words -/

/-- The mask covers both reserved fields, bits 7:6 and 23:20 (R96). -/
theorem reserved_fields_eq_zero {w : Word} (h : w &&& 0x00F000C0 = 0) :
    w.extractLsb' 6 2 = 0 ∧ w.extractLsb' 20 4 = 0 := by
  have h6 : w.extractLsb' 6 2 &&& 3 = 0 := by simpa [BitVec.extractLsb'_and] using congrArg (BitVec.extractLsb' 6 2) h
  have h20 : w.extractLsb' 20 4 &&& 15 = 0 := by
    simpa [BitVec.extractLsb'_and] using congrArg (BitVec.extractLsb' 20 4) h
  exact ⟨BitVec.and_allOnes.symm.trans h6, BitVec.and_allOnes.symm.trans h20⟩

/-- Settles O4: every row asks for zeros in both fields. -/
theorem reservedBitsAreIllegal : Obligations.ReservedBitsAreIllegal := by
  intro w h
  apply exists_error_of_ne_ok
  intro i hi
  obtain ⟨r, hr, hm, _⟩ := decode_eq_ok_iff.1 hi
  obtain ⟨h0, h1⟩ := reserved_fields_eq_zero (reserved_of_matches hr hm)
  exact h.elim (· h0) (· h1)

/-- The opcodes of R98. -/
theorem opcode_range (i : Instr) : (0x01 ≤ i.opcode ∧ i.opcode ≤ 0x09) ∨ (0x10 ≤ i.opcode ∧ i.opcode ≤ 0x13) := by
  cases i <;> simp [Instr.opcode]

theorem toNat_fieldOp (w : Word) : (fieldOp w).toNat = w.toNat % 64 := by simp [fieldOp, BitVec.extractLsb'_toNat]

theorem opcodeTable_mtch_lt : ∀ r ∈ opcodeTable, r.mtch.toNat < 64 := by decide

/-- OP of a word that decodes is the command's opcode (R92). -/
theorem toNat_mod_of_decode {w : Word} {i : Instr} (h : decode w = .ok i) : w.toNat % 64 = i.opcode := by
  obtain ⟨r, hr, hm, rfl⟩ := decode_eq_ok_iff.1 h
  have hw := congrArg BitVec.toNat (fieldOp_of_matches hr hm)
  rw [toNat_fieldOp, toNat_fieldOp] at hw
  rw [opcode_read hr, hw, Nat.mod_eq_of_lt (opcodeTable_mtch_lt r hr)]

/-- Settles O5: a command's word holds an opcode of the table, and no reserved value is one. -/
theorem reservedOpcodesAreIllegal : Obligations.ReservedOpcodesAreIllegal := by
  have hreserved : ∀ w : Word, (w.toNat % 64 = 0 ∨ (0x0A ≤ w.toNat % 64 ∧ w.toNat % 64 ≤ 0x0F) ∨ 0x14 ≤ w.toNat % 64) →
      ∃ r, decode w = .error r := by
    intro w h
    apply exists_error_of_ne_ok
    intro i hi
    have hop := toNat_mod_of_decode hi
    have hrange := opcode_range i
    omega
  exact ⟨hreserved, hreserved 0 (.inl rfl)⟩

/-- Settles O6: each word evaluated. -/
theorem decodeSamples : Obligations.DecodeSamples := by
  unfold Obligations.DecodeSamples
  decide

end Sys2Proof
end

section
/-! The assembler against the text the model writes for a command (30_encoding.md R102): numbers in decimal, operands,
the pieces of a line, and the line as a whole. -/

namespace Sys2Proof.Machine

/-! ## Numbers in decimal -/

theorem isDigit_of_mem_decimal {n : Nat} {c : Char} (h : c ∈ Nat.toDigits 10 n) : c.isDigit = true :=
  Nat.isDigit_of_mem_toDigits (by decide) (by decide) h

theorem isDigit_iff {c : Char} : c.isDigit = true ↔ '0' ≤ c ∧ c ≤ '9' := by
  simp [Char.isDigit, Char.le_def]

theorem digitValue_of_isDigit {c : Char} (h : c.isDigit = true) : digitValue c = some (c.toNat - '0'.toNat) := by
  rw [digitValue, if_pos (isDigit_iff.1 h)]

theorem digit_lt_ten {c : Char} (h : c.isDigit = true) : c.toNat - '0'.toNat < 10 := by
  have hle : c.toNat ≤ '9'.toNat := (isDigit_iff.1 h).2
  have h9 : '9'.toNat = 57 := rfl
  have h0 : '0'.toNat = 48 := rfl
  omega

/-- On decimal digits the assembler's reading of a number is the library's. -/
theorem digitsValue_eq_ofDigitChars {cs : List Char} (h : ∀ c ∈ cs, c.isDigit = true) (acc : Nat) :
    digitsValue 10 cs acc = some (Nat.ofDigitChars 10 cs acc) := by
  induction cs generalizing acc with
  | nil => rfl
  | cons c cs ih =>
    obtain ⟨hc, hcs⟩ := List.forall_mem_cons.1 h
    rw [digitsValue, digitValue_of_isDigit hc, Option.bind_some, if_pos (digit_lt_ten hc), ih hcs,
      Nat.ofDigitChars_cons]

theorem numberBelow_decimal {bound n : Nat} (h : n < bound) : numberBelow bound 10 (Nat.toDigits 10 n) = some n := by
  rw [numberBelow, if_neg Nat.toDigits_ne_nil, digitsValue_eq_ofDigitChars (fun _ => isDigit_of_mem_decimal),
    Nat.ofDigitChars_ten_toDigits]
  simp [h]

/-! ## Operands -/

/-- How an operand is written (R102). -/
def AsmOperand.text : AsmOperand → List Char
  | .f i => fregText i
  | .p i => pregText i
  | .imm j => immText j

/-- An immediate written in decimal is not taken for one in hexadecimal: no digit is an `x`. -/
theorem readOperand_immText (j : BitVec 8) : readOperand (immText j) = some (.imm j) := by
  unfold immText readOperand
  split
  · rename_i h; simp at h
  · rename_i h; simp at h
  · rename_i cs h
    have hx : 'x' ∈ Nat.toDigits 10 j.toNat := by simp [(List.cons.inj h).2]
    exact absurd (isDigit_of_mem_decimal hx) (by decide)
  · rename_i cs _ h
    rw [← (List.cons.inj h).2, numberBelow_decimal j.isLt]
    simp
  · simp_all

/-- Every operand is read back from its own text. -/
theorem readOperand_text (o : AsmOperand) : readOperand o.text = some o := by
  cases o with
  | f i => simp [AsmOperand.text, fregText, readOperand, numberBelow_decimal i.isLt]
  | p i => simp [AsmOperand.text, pregText, readOperand, numberBelow_decimal i.isLt]
  | imm j => exact readOperand_immText j

theorem mapM_readOperand_text (os : List AsmOperand) : (os.map AsmOperand.text).mapM readOperand = some os := by
  induction os with
  | nil => rfl
  | cons o os ih => simp [readOperand_text, ih]

/-- A text without a comma and without a space. -/
def Solid (cs : List Char) : Prop := ∀ c ∈ cs, c ≠ ',' ∧ c ≠ ' '

theorem solid_cons_decimal {c : Char} (h : c ≠ ',' ∧ c ≠ ' ') (n : Nat) : Solid (c :: Nat.toDigits 10 n) := by
  refine List.forall_mem_cons.2 ⟨h, fun d hd => ?_⟩
  have hdigit := isDigit_of_mem_decimal hd
  constructor <;> rintro rfl <;> exact absurd hdigit (by decide)

theorem AsmOperand.text_solid (o : AsmOperand) : Solid o.text := by
  cases o with
  | f i => exact solid_cons_decimal (by decide) _
  | p i => exact solid_cons_decimal (by decide) _
  | imm j => exact solid_cons_decimal (by decide) _

/-! ## The pieces of a line -/

theorem pieces_ne_nil (cs : List Char) : pieces cs ≠ [] := by
  cases cs with
  | nil => simp [pieces]
  | cons c cs => unfold pieces; split <;> [simp; split_ifs <;> simp]

theorem pieces_space (cs : List Char) : pieces (' ' :: cs) = pieces cs := by
  rw [pieces]
  split
  · exact absurd ‹_› (pieces_ne_nil cs)
  · simp [*]

theorem pieces_comma (cs : List Char) : pieces (',' :: cs) = [] :: pieces cs := by
  rw [pieces]
  split
  · exact absurd ‹_› (pieces_ne_nil cs)
  · simp [*]

/-- A solid text goes to the front of the first piece. -/
theorem pieces_solid_append {t rest w : List Char} {ws : List (List Char)} (h : Solid t) (hr : pieces rest = w :: ws) :
    pieces (t ++ rest) = (t ++ w) :: ws := by
  induction t with
  | nil => exact hr
  | cons c t ih =>
    obtain ⟨⟨hcomma, hspace⟩, ht⟩ := List.forall_mem_cons.1 h
    rw [List.cons_append, pieces, ih ht]
    simp [hcomma, hspace]

/-- Solid texts joined by a comma and a space are the pieces of what they are joined to. -/
theorem pieces_intercalate {t : List Char} {ts : List (List Char)} (h : ∀ u ∈ t :: ts, Solid u) :
    pieces ([',', ' '].intercalate (t :: ts)) = t :: ts := by
  induction ts generalizing t with
  | nil =>
    obtain ⟨ht, _⟩ := List.forall_mem_cons.1 h
    simpa using pieces_solid_append ht (rest := []) (w := []) (ws := []) rfl
  | cons u ts ih =>
    obtain ⟨ht, hts⟩ := List.forall_mem_cons.1 h
    have hrest : pieces (',' :: ' ' :: [',', ' '].intercalate (u :: ts)) = [] :: u :: ts := by
      rw [pieces_comma, pieces_space, ih hts]
    simpa [List.intercalate] using pieces_solid_append ht hrest

/-! ## The line -/

theorem takeWhile_lineText {m : List Char} (h : ' ' ∉ m) (ts : List (List Char)) :
    (lineText m ts).takeWhile (· ≠ ' ') = m := by
  rw [lineText, List.takeWhile_append_of_pos (by grind)]
  simp

theorem dropWhile_lineText {m : List Char} (h : ' ' ∉ m) (ts : List (List Char)) :
    (lineText m ts).dropWhile (· ≠ ' ') = ' ' :: [',', ' '].intercalate ts := by
  rw [lineText, List.dropWhile_append_of_pos (by grind)]
  simp

theorem space_notMem_of_mnemonics : ∀ e ∈ mnemonics, ' ' ∉ e.1 := by decide

/-- The assembler takes a written line apart into the mnemonic and the operands it was written from. -/
theorem assemble_lineText {m : List Char} {k : Mnemonic} (hk : mnemonics.lookup m = some k) (o : AsmOperand)
    (os : List AsmOperand) : assemble (lineText m ((o :: os).map AsmOperand.text)) = readLine k (o :: os) := by
  have hm : ' ' ∉ m := by
    obtain ⟨before, after, heq, _⟩ := List.lookup_eq_some_iff.1 hk
    exact space_notMem_of_mnemonics (m, k) (by simp [heq])
  have hsolid : ∀ u ∈ (o :: os).map AsmOperand.text, Solid u := List.forall_mem_map.2 fun o _ => o.text_solid
  have hpieces : pieces ([',', ' '].intercalate ((o :: os).map AsmOperand.text)) = (o :: os).map AsmOperand.text :=
    pieces_intercalate hsolid
  rw [assemble, takeWhile_lineText hm, dropWhile_lineText hm, pieces_space, hpieces, mapM_readOperand_text, hk]
  rfl

/-- Settles O7: the mnemonic is looked up, and with the operands it makes the command. -/
theorem assemblerReadsItsOwnText : Obligations.AssemblerReadsItsOwnText := by
  intro i
  cases i with
  | zero d => exact assemble_lineText (m := "ZERO".toList) rfl (.f d) []
  | copy d a => exact assemble_lineText (m := "COPY".toList) rfl (.f d) [.f a]
  | isZero a => exact assemble_lineText (m := "ISZERO".toList) rfl (.f a) []
  | add d a b => exact assemble_lineText (m := "ADD".toList) rfl (.f d) [.f a, .f b]
  | mulx d a => exact assemble_lineText (m := "MULX".toList) rfl (.f d) [.f a]
  | mul d a b => exact assemble_lineText (m := "MUL".toList) rfl (.f d) [.f a, .f b]
  | sqr d a => exact assemble_lineText (m := "SQR".toList) rfl (.f d) [.f a]
  | itpow d a j => exact assemble_lineText (m := "ITPOW".toList) rfl (.f d) [.f a, .imm j]
  | inv d a => exact assemble_lineText (m := "INV".toList) rfl (.f d) [.f a]
  | pisinf a => exact assemble_lineText (m := "PISINF".toList) rfl (.p a) []
  | pdbl d a => exact assemble_lineText (m := "PDBL".toList) rfl (.p d) [.p a]
  | padd d a b => exact assemble_lineText (m := "PADD".toList) rfl (.p d) [.p a, .p b]
  | smul d a => exact assemble_lineText (m := "SMUL".toList) rfl (.p d) [.p a]

end Sys2Proof.Machine
end

section
/-! Commands as lines of a host script: an illegal word is turned away (R214), and a pseudo-command's commands, each
issued and completed before the next (30_encoding.md R103). -/

namespace Sys2Proof.Machine

variable {s : State} {es : List Event} {i : Instr}

/-- Settles O9: the port hands the word to the decoder, and the first error is kept. -/
theorem stepRejectsIllegalWord : Obligations.StepRejectsIllegalWord := by
  intro s w es r hr hi hw
  rw [step_cmd hr hi, issueCommand, hw]
  change rejectWord (s.schedule es) = _
  rw [rejectWord_eq, raise_eq, apply_ite ErrorCode.code]
  rfl

/-! ## A command issued and completed -/

/-- An idle block after command `i` was issued and completed, the schedule `es` being left. -/
def State.afterCommand (s : State) (i : Instr) (es : List Event) : State :=
  (((s.accepted i (execCase i s)).schedule es).applyResult (execCase i s)).retire

/-- A command's word in an idle block, with the engine's turn after it, takes two steps (R120, R121). -/
theorem run_command (hb : s.busy = false) (hr : s.rst = false) (hi : s.inputs = cmd i :: .engine :: es) (n : Nat) :
    Sys2Proof.core.run (n + 2) s = Sys2Proof.core.run n (s.afterCommand i es) := by
  have hexec : execCase i (s.schedule (.engine :: es)) = execCase i s :=
    execCase_congr (by simp) (by simp) (by simp) i
  have hissue : step s = .next ((s.accepted i (execCase i s)).schedule (.engine :: es)) := by
    rw [step_cmd hr hi, issueCommand, decodeOfEncode i]
    change exec i (s.schedule (.engine :: es)) = _
    rw [exec_idle (s := s.schedule (.engine :: es)) hb, hexec]
    rfl
  have hcomplete : step ((s.accepted i (execCase i s)).schedule (.engine :: es)) = .next (s.afterCommand i es) := by
    rw [step_engine rfl, engineStep_busy rfl, complete_of_pend rfl]
    rfl
  rw [core_run_next _ hissue, core_run_next _ hcomplete]

section AfterCommand

variable (s i es)

@[simp] theorem afterCommand_params : (s.afterCommand i es).params = s.params := by simp [State.afterCommand]
@[simp] theorem afterCommand_K : (s.afterCommand i es).K = s.K := by simp [State.afterCommand]
@[simp] theorem afterCommand_busy : (s.afterCommand i es).busy = false := by simp [State.afterCommand]
@[simp] theorem afterCommand_rst : (s.afterCommand i es).rst = s.rst := by simp [State.afterCommand]
@[simp] theorem afterCommand_inputs : (s.afterCommand i es).inputs = es := by simp [State.afterCommand]

end AfterCommand

/-- Z is left alone by a command that does not answer (R44). -/
theorem afterCommand_z (h : ∀ b, execCase i s ≠ .setZ b) : (s.afterCommand i es).z = s.z := by
  by_contra hz
  obtain ⟨b, hb, _⟩ := applyResult_z_changed hz
  exact h b hb

/-- A command that writes one register changes no other, and records no error. -/
theorem afterCommand_of_write {d : FReg} {v : FieldElem} (h : execCase i s = .write [(d, v)]) (es : List Event) :
    s.afterCommand i es = ((s.setFreg d v).schedule es).retire := by
  rw [State.afterCommand, h]
  rfl

/-! ## Commands one after the other -/

/-- The script of some commands, each followed by the engine's turn. -/
def commandScript (is : List Instr) : List Event := is.flatMap fun i => [cmd i, .engine]

/-- An idle block after some commands were issued, each completed before the next. -/
def State.afterCommands (s : State) : List Instr → State
  | [] => s
  | i :: is => (s.afterCommand i (commandScript is)).afterCommands is

theorem run_commandScript (is : List Instr) (hb : s.busy = false) (hr : s.rst = false)
    (hi : s.inputs = commandScript is) :
    Sys2Proof.core.run s.inputs.length s = .next (s.afterCommands is) := by
  rw [hi]
  induction is generalizing s with
  | nil => rfl
  | cons i is ih =>
    have hrest := ih (s := s.afterCommand i (commandScript is)) (by simp) (by simpa using hr) (by simp)
    exact (run_command hb hr hi _).trans hrest

theorem afterCommands_K (s : State) (is : List Instr) : (s.afterCommands is).K = s.K := by
  induction is generalizing s with
  | nil => rfl
  | cons i is ih => exact (ih _).trans (by simp)

theorem afterCommands_busy (is : List Instr) (hb : s.busy = false) : (s.afterCommands is).busy = false := by
  induction is generalizing s with
  | nil => exact hb
  | cons i is ih => exact ih (by simp)

theorem afterCommands_z (s : State) {is : List Instr} (h : ∀ i ∈ is, ∀ t b, execCase i t ≠ .setZ b) :
    (s.afterCommands is).z = s.z := by
  induction is generalizing s with
  | nil => rfl
  | cons i is ih =>
    obtain ⟨hi, his⟩ := List.forall_mem_cons.1 h
    exact (ih _ his).trans (afterCommand_z (hi s))

/-- Two commands, the second computing its write from the registers as the first leaves them. -/
theorem afterCommands_two_writes {j : Instr} {d e : FReg} {v w : FieldElem} (hi : execCase i s = .write [(d, v)])
    (hj : execCase j (s.setFreg d v) = .write [(e, w)]) :
    s.afterCommands [i, j] = (((s.setFreg d v).setFreg e w).schedule []).retire := by
  have hsame : execCase j (((s.setFreg d v).schedule (commandScript [j])).retire) = execCase j (s.setFreg d v) :=
    execCase_congr (by simp) (by simp) (by simp) j
  rw [State.afterCommands, State.afterCommands, State.afterCommands, afterCommand_of_write hi,
    afterCommand_of_write (hsame.trans hj)]
  rfl

/-! ## The pseudo-commands -/

/-- No pseudo-command stands for a test. -/
theorem expandPseudo_ne_setZ (c : Pseudo) : ∀ i ∈ expandPseudo c, ∀ t b, execCase i t ≠ .setZ b := by
  intro i hi t b h
  rcases execCase_eq_setZ h with ⟨a, rfl⟩ | ⟨a, rfl⟩ <;> cases c <;> simp [expandPseudo] at hi

/-- `t` is `s` with `P[d]` holding `q`, as far as field registers and errors go. -/
def PointWritten (s t : State) (d : PReg) (q : Point) : Prop :=
  t.preg d = q ∧ t.err = s.err ∧ t.errcode = s.errcode ∧ ∀ i, i ≠ d.xReg → i ≠ d.yReg → t.freg i = s.freg i

/-- The two halves of a point may be written in either order. -/
theorem pointWritten_halves (s : State) (d : PReg) (x y : FieldElem) :
    PointWritten s (((s.setFreg d.xReg x).setFreg d.yReg y).schedule []).retire d (x, y) ∧
      PointWritten s (((s.setFreg d.yReg y).setFreg d.xReg x).schedule []).retire d (x, y) := by
  have hxy : d.xReg ≠ d.yReg := xReg_ne_yReg d d
  constructor
  · refine ⟨?_, rfl, rfl, fun i hx hy => ?_⟩
    · simp [State.preg, freg_setFreg, hxy.symm]
    · simp [freg_setFreg, hx.symm, hy.symm]
  · refine ⟨?_, rfl, rfl, fun i hx hy => ?_⟩
    · simp [State.preg, freg_setFreg, hxy]
    · simp [freg_setFreg, hx.symm, hy.symm]

theorem pointWritten_setinf (s : State) (d : PReg) :
    PointWritten s (s.afterCommands (expandPseudo (.setinf d))) d infinity := by
  rw [expandPseudo, afterCommands_two_writes rfl rfl]
  exact (pointWritten_halves s d 0 0).1

/-- The first COPY leaves the second one's source alone. -/
theorem pointWritten_pcopy (s : State) (d a : PReg) :
    PointWritten s (s.afterCommands (expandPseudo (.pcopy d a))) d (s.preg a) := by
  rw [expandPseudo, afterCommands_two_writes rfl rfl, freg_setFreg_other s (xReg_ne_yReg d a)]
  exact (pointWritten_halves s d _ _).1

/-- The ADD writes a y coordinate, so the COPY's source is as it was (R103). -/
theorem pointWritten_pneg (s : State) (d a : PReg) :
    PointWritten s (s.afterCommands (expandPseudo (.pneg d a))) d (pnegf (s.preg a)) := by
  rw [expandPseudo, afterCommands_two_writes rfl rfl, freg_setFreg_other s (xReg_ne_yReg a d).symm]
  exact (pointWritten_halves s d _ _).2

/-- INV leaves the dividend alone, because the scratch register is another (R103). -/
theorem afterCommands_fdiv {a b x : FReg} (d : FReg) (hx : x ≠ a) (hb : s.freg b ≠ 0) :
    s.afterCommands (expandPseudo (.fdiv d a b x)) =
      (((s.setFreg x (finv s.params (s.freg b))).setFreg d
        (fmul s.params (s.freg a) (finv s.params (s.freg b)))).schedule []).retire := by
  have hinv : execCase (.inv x b) s = .write [(x, finv s.params (s.freg b))] := if_neg hb
  rw [expandPseudo, afterCommands_two_writes hinv rfl, freg_setFreg_other s hx, freg_setFreg_same, setFreg_params]

theorem afterCommands_sqrn (s : State) (d a : FReg) (j : BitVec 8) :
    s.afterCommands (expandPseudo (.sqrn d a j)) =
      ((s.setFreg d (fpow2 s.params (s.freg a) j.toNat)).schedule []).retire :=
  afterCommand_of_write rfl []

/-- Settles O60: the script runs the commands of the expansion, and they write what the pseudo-command names. -/
theorem pseudoCommandsDoWhatTheyName : Obligations.PseudoCommandsDoWhatTheyName := by
  intro s c hb hr hc hi
  refine ⟨s.afterCommands (expandPseudo c), run_commandScript _ hb hr hi, afterCommands_K s _,
    afterCommands_z s (expandPseudo_ne_setZ c), afterCommands_busy _ hb, ?_⟩
  cases c with
  | setinf d => exact pointWritten_setinf s d
  | pcopy d a => exact pointWritten_pcopy s d a
  | pneg d a => exact pointWritten_pneg s d a
  | fdiv d a b x =>
    intro hdiv
    rw [afterCommands_fdiv d hc hdiv]
    refine ⟨freg_setFreg_same _ d _, rfl, rfl, fun i hd hx => ?_⟩
    exact (freg_setFreg_other _ hd.symm _).trans (freg_setFreg_other s hx.symm _)
  | sqrn d a j =>
    rw [afterCommands_sqrn]
    exact ⟨freg_setFreg_same s d _, rfl, rfl, fun i hd => freg_setFreg_other s hd.symm _⟩

end Sys2Proof.Machine
end

section
/-! A command that is issued in an idle block and completed by the engine's next step, or turned away by a busy one
(40_field.md R120 to R123). -/

namespace Sys2Proof.Machine

/-! ## Acceptance and rejection -/

/-- Settles O10: acceptance changes PEND, BUSY and DONE alone. -/
theorem idleBlockAcceptsEveryCommand : Obligations.IdleBlockAcceptsEveryCommand := fun _ _ hb => exec_idle hb

/-- Settles O11: the rejection is the error CMD_BUSY, the first error being kept. -/
theorem busyBlockTurnsCommandsAway : Obligations.BusyBlockTurnsCommandsAway := by
  intro i s hb
  rw [exec_busy hb, raise_eq]
  rfl

/-! ## Results of the commands -/

/-- Settles O32: every arm of `Exec` writes canonical values. -/
theorem commandResultsAreCanonical : Obligations.CommandResultsAreCanonical := fun i _ hp hc =>
  execCase_canonical hp hc i

/-- Only INV can fail after acceptance, and only for a zero source (R123, R133). -/
theorem execCase_eq_fail {i : Instr} {s : State} {c : ErrorCode} (h : execCase i s = .fail c) :
    c = .invZero ∧ ∃ d a, i = .inv d a ∧ s.freg a = 0 := by
  cases i with
  | inv d a =>
    change invResult d a s = .fail c at h
    unfold invResult at h
    split at h <;> cases h
    exact ⟨rfl, d, a, rfl, by assumption⟩
  | _ => cases h

/-- Settles O33: the commands that fail, and those that answer in Z. -/
theorem onlyInvOfZeroFails : Obligations.OnlyInvOfZeroFails := fun _ _ =>
  ⟨fun _ h => execCase_eq_fail h, fun _ h => execCase_eq_setZ h⟩

/-! ## Completion -/

section Completion

variable {i : Instr} {s : State} {r : Result}

/-- In an idle block a command completes with what its `Exec` case gives (R120, R121). -/
theorem completesWith_of_idle (hb : s.busy = false) (h : execCase i s = r) :
    CompletesWith i s r ((s.accepted i r).applyResult r).retire := by
  subst h
  have hcomplete := complete_of_pend (accepted_pend s i (execCase i s))
  exact ⟨exec_idle hb, (engineStep_busy (accepted_busy s i _)).trans hcomplete⟩

theorem completesWriting_of_idle {d : FReg} {v : FieldElem} (hb : s.busy = false)
    (h : execCase i s = .write [(d, v)]) : CompletesWriting i s d v := completesWith_of_idle hb h

theorem completesAnswering_of_idle {b : Bool} (hb : s.busy = false) (h : execCase i s = .setZ b) :
    CompletesAnswering i s b := completesWith_of_idle hb h

end Completion

/-! ## The commands without multiplication -/

/-- Settles O12: the `Exec` case is the write of 0. -/
theorem zeroCompletes : Obligations.ZeroCompletes := fun _ _ hb => completesWriting_of_idle hb rfl

/-- Settles O13: the source is read at acceptance. -/
theorem copyCompletes : Obligations.CopyCompletes := fun _ _ _ hb => completesWriting_of_idle hb rfl

/-- Settles O14: the answer tests all 240 bits. -/
theorem isZeroCompletes : Obligations.IsZeroCompletes := fun _ _ hb => completesAnswering_of_idle hb rfl

/-- Settles O15: `fadd` is XOR. -/
theorem addCompletes : Obligations.AddCompletes := fun _ _ _ _ hb => completesWriting_of_idle hb rfl

/-- `fpow2` is R18's repeated squaring. -/
theorem fpow2_eq_iterate (p : Params) (a : FieldElem) (j : Nat) : fpow2 p a j = (fsqr p)^[j] a := by
  induction j with
  | zero => rfl
  | succ j ih => rw [fpow2, ih, Function.iterate_succ_apply']

/-- Settles O19: the immediate counts the squarings. -/
theorem itpowCompletes : Obligations.ItpowCompletes := by
  intro s d a j hb
  rw [← fpow2_eq_iterate]
  exact completesWriting_of_idle hb rfl

/-- Settles O21: the failure is raised as an error, the first one being kept. -/
theorem invOfZeroRecordsError : Obligations.InvOfZeroRecordsError := by
  intro s d a hb h0
  have hfail : execCase (.inv d a) s = .fail .invZero := if_pos h0
  have h := completesWith_of_idle hb hfail
  rwa [State.applyResult, raise_eq] at h

end Sys2Proof.Machine
end

section
/-! The laws of the field (40_field.md R135 to R138). Each is an identity of the ring (ZMod 2)[X] / f: the values of
both sides are canonical, so they are equal once their classes are (`elem_injective`). -/

namespace Sys2Proof.Machine

variable {p : Params} {a : FieldElem}

/-! ## The commutative ring (R135) -/

theorem fmul_comm (h : p.Sized) (a b : FieldElem) : fmul p a b = fmul p b a := by
  apply elem_injective h.low (fmul_canonical h.low _ _) (fmul_canonical h.low _ _)
  rw [elem_fmul h, elem_fmul h, mul_comm]

theorem fmul_assoc (h : p.Sized) (a b c : FieldElem) : fmul p (fmul p a b) c = fmul p a (fmul p b c) := by
  apply elem_injective h.low (fmul_canonical h.low _ _) (fmul_canonical h.low _ _)
  simp only [elem_fmul h, mul_assoc]

theorem fmul_fadd (h : p.Sized) (a b c : FieldElem) : fmul p a (fadd b c) = fadd (fmul p a b) (fmul p a c) := by
  apply elem_injective h.low (fmul_canonical h.low _ _)
    (fadd_canonical (fmul_canonical h.low _ _) (fmul_canonical h.low _ _))
  simp only [elem_fmul h, elem_fadd, mul_add]

theorem fmul_one (h : p.Sized) (ha : p.Canonical a) : fmul p a 1 = a := by
  apply elem_injective h.low (fmul_canonical h.low _ _) ha
  rw [elem_fmul h, elem_one h, mul_one]

theorem fmul_zero (h : p.Sized) (a : FieldElem) : fmul p a 0 = 0 := by
  apply elem_injective h.low (fmul_canonical h.low _ _) (zero_canonical p)
  have h0 : elem p 0 = 0 := elem_zero p
  rw [elem_fmul h, h0, mul_zero]

theorem fsqr_eq_fmul_self (h : p.Sized) (a : FieldElem) : fsqr p a = fmul p a a := by
  apply elem_injective h.low (fsqr_canonical h.low _) (fmul_canonical h.low _ _)
  rw [elem_fsqr h, elem_fmul h, sq]

/-- Squaring is additive, because the ring has characteristic 2. -/
theorem fsqr_fadd (h : p.Sized) (a b : FieldElem) : fsqr p (fadd a b) = fadd (fsqr p a) (fsqr p b) := by
  have := charP_elem h.degree h.low
  apply elem_injective h.low (fsqr_canonical h.low _) (fadd_canonical (fsqr_canonical h.low _) (fsqr_canonical h.low _))
  simp only [elem_fsqr h, elem_fadd, add_pow_char]

theorem fmulx_eq_fmul (h : p.Sized) (a : FieldElem) : fmulx p a = fmul p a 2 := by
  apply elem_injective h.low (fmulx_canonical h.low _) (fmul_canonical h.low _ _)
  rw [elem_fmulx h, elem_fmul h]

/-- Settles O28: the clauses of R135, one lemma each. -/
theorem multiplicationLaws : Obligations.MultiplicationLaws := by
  intro p a b c h ha _ _
  exact ⟨fmul_comm h a b, fmul_assoc h a b c, fmul_fadd h a b c, fmul_one h ha, fmul_zero h a, fsqr_eq_fmul_self h a,
    fsqr_fadd h a b, fmulx_eq_fmul h a⟩

/-! ## The finite field of an irreducible `f` -/

/-- The ring (ZMod 2)[X] / f has `2^M` elements, whether `f` is irreducible or not. -/
theorem natCard_elem (h : p.LowPartFits) : Nat.card (AdjoinRoot (toPoly p.rpoly)) = 2 ^ p.M := by
  have hf := toPoly_rpoly_ne_zero h
  have := (AdjoinRoot.powerBasis hf).finite
  rw [Module.natCard_eq_pow_finrank (K := ZMod 2), Nat.card_zmod, (AdjoinRoot.powerBasis hf).finrank,
    AdjoinRoot.powerBasis_dim, natDegree_rpoly h]

/-- Fermat's theorem in the field of an irreducible `f`: the order of its unit group is `2^M - 1`. -/
theorem mul_pow_eq_one (h : p.WellFormed) {x : AdjoinRoot (toPoly p.rpoly)} (hx : x ≠ 0) :
    x * x ^ (2 ^ p.M - 2) = 1 := by
  have hf := toPoly_rpoly_ne_zero h.low
  have := Fact.mk (irreducible_toPoly_rpoly h.degree h.low h.irreducible)
  have hfin : Finite (AdjoinRoot (toPoly p.rpoly)) := Nat.finite_of_card_ne_zero (by simp [natCard_elem h.low])
  have := Fintype.ofFinite (AdjoinRoot (toPoly p.rpoly))
  have hM : 2 ^ p.M - 2 + 1 = 2 ^ p.M - 1 := by
    have : (2 : Nat) ^ 2 ≤ 2 ^ p.M := Nat.pow_le_pow_right (by decide) h.degree.1
    omega
  rw [← pow_succ', hM, ← natCard_elem h.low, Nat.card_eq_fintype_card]
  exact FiniteField.pow_card_sub_one_eq_one x hx

theorem pow_two_pow_M (h : p.WellFormed) (x : AdjoinRoot (toPoly p.rpoly)) : x ^ 2 ^ p.M = x := by
  have hM : (2 : Nat) ^ 2 ≤ 2 ^ p.M := Nat.pow_le_pow_right (by decide) h.degree.1
  by_cases hx : x = 0
  · rw [hx, zero_pow (by omega)]
  · calc x ^ 2 ^ p.M = x * (x * x ^ (2 ^ p.M - 2)) := by rw [← pow_succ', ← pow_succ']; congr 1; omega
      _ = x := by rw [mul_pow_eq_one h hx, mul_one]

theorem elem_ne_zero (h : p.LowPartFits) (ha : p.Canonical a) (h0 : a ≠ 0) : elem p a ≠ 0 := fun he =>
  h0 (elem_injective h ha (zero_canonical p) (he.trans (elem_zero p).symm))

/-! ## The Frobenius map (R136) -/

theorem fpow2_fpow2 (p : Params) (a : FieldElem) (i j : Nat) : fpow2 p (fpow2 p a i) j = fpow2 p a (i + j) := by
  rw [fpow2_eq_iterate, fpow2_eq_iterate, fpow2_eq_iterate, Nat.add_comm, Function.iterate_add_apply]

theorem fpow2_M (h : p.WellFormed) (ha : p.Canonical a) : fpow2 p a p.M = a := by
  apply elem_injective h.low (fpow2_canonical h.low ha _) ha
  rw [elem_fpow2 h.toSized, pow_two_pow_M h]

/-- M squarings give the element back, so only the rest of their number modulo M counts. -/
theorem fpow2_mod_M (h : p.WellFormed) (ha : p.Canonical a) (j : Nat) : fpow2 p a j = fpow2 p a (j % p.M) := by
  have hper : Function.IsPeriodicPt (fsqr p) p.M a := (fpow2_eq_iterate p a p.M).symm.trans (fpow2_M h ha)
  rw [fpow2_eq_iterate, fpow2_eq_iterate, hper.iterate_mod_apply]

/-- Settles O29: squarings are iterated, and M of them are the identity. -/
theorem frobeniusLaws : Obligations.FrobeniusLaws := fun p a h ha =>
  ⟨fpow2_fpow2 p a, fun hi =>
    have hw : p.WellFormed := { h with irreducible := hi }
    ⟨fpow2_M hw ha, fpow2_mod_M hw ha⟩⟩

/-! ## The inverse (R137) -/

theorem fmul_finv (h : p.WellFormed) (ha : p.Canonical a) (h0 : a ≠ 0) : fmul p a (finv p a) = 1 := by
  apply elem_injective h.low (fmul_canonical h.low _ _) (one_canonical h.degree)
  rw [elem_fmul h.toSized, elem_finv h.toSized, elem_one h.toSized, mul_pow_eq_one h (elem_ne_zero h.low ha h0)]

theorem finv_ne_zero (h : p.WellFormed) (ha : p.Canonical a) (h0 : a ≠ 0) : finv p a ≠ 0 := by
  intro hz
  have h1 := fmul_finv h ha h0
  rw [hz, fmul_zero h.toSized] at h1
  exact absurd h1 (by decide)

/-- `a` and `finv(finv(a))` are both the inverse of `finv(a)`. -/
theorem finv_finv (h : p.WellFormed) (ha : p.Canonical a) (h0 : a ≠ 0) : finv p (finv p a) = a := by
  have hc : p.Canonical (finv p a) := finv_canonical h.toSized a
  calc finv p (finv p a)
      = fmul p (finv p (finv p a)) (fmul p a (finv p a)) := by
        rw [fmul_finv h ha h0, fmul_one h.toSized (finv_canonical h.toSized _)]
    _ = fmul p a (fmul p (finv p a) (finv p (finv p a))) := by rw [fmul_comm h.toSized, fmul_assoc h.toSized]
    _ = a := by rw [fmul_finv h hc (finv_ne_zero h ha h0), fmul_one h.toSized ha]

theorem finv_one (h : p.Sized) : finv p 1 = 1 := by
  apply elem_injective h.low (finv_canonical h 1) (one_canonical h.degree)
  rw [elem_finv h, elem_one h, one_pow]

/-- Settles O30: the laws of the inverse, by Fermat's theorem in the field of `2^M` elements. -/
theorem inverseLaws : Obligations.InverseLaws := fun _ _ h ha h0 =>
  ⟨fmul_finv h ha h0, finv_finv h ha h0, finv_one h.toSized⟩

/-! ## The Itoh-Tsujii chain (R138) -/

theorem fexp_canonical (h : p.Sized) (a : FieldElem) (e : Nat) : p.Canonical (fexp p a e) :=
  fexpBits_canonical h a _ e

theorem fexp_zero (h : p.Sized) (a : FieldElem) : fexp p a 0 = 1 := by
  apply elem_injective h.low (fexp_canonical h a 0) (one_canonical h.degree)
  rw [elem_fexp h, elem_one h, pow_zero]

theorem fexp_one (h : p.Sized) (ha : p.Canonical a) : fexp p a 1 = a := by
  apply elem_injective h.low (fexp_canonical h a 1) ha
  rw [elem_fexp h, pow_one]

/-- `fexp` turns `e * 2^j + e'` into `j` squarings and one product. -/
theorem fexp_mul_two_pow_add (h : p.Sized) (a : FieldElem) (e e' j : Nat) :
    fexp p a (e * 2 ^ j + e') = fmul p (fpow2 p (fexp p a e) j) (fexp p a e') := by
  apply elem_injective h.low (fexp_canonical h a _) (fmul_canonical h.low _ _)
  rw [elem_fmul h, elem_fpow2 h, elem_fexp h, elem_fexp h, elem_fexp h, ← pow_mul, ← pow_add]

theorem fexp_mul_two (h : p.Sized) (a : FieldElem) (e : Nat) : fexp p a (e * 2) = fsqr p (fexp p a e) := by
  apply elem_injective h.low (fexp_canonical h a _) (fsqr_canonical h.low _)
  rw [elem_fsqr h, elem_fexp h, elem_fexp h, ← pow_mul]

/-- `2^(i+j) - 1 = (2^i - 1)·2^j + (2^j - 1)`. -/
theorem two_pow_add_sub_one (i j : Nat) : 2 ^ (i + j) - 1 = (2 ^ i - 1) * 2 ^ j + (2 ^ j - 1) := by
  have hj : 2 ^ j ≤ 2 ^ i * 2 ^ j := Nat.le_mul_of_pos_left _ (by positivity)
  have hpos : 1 ≤ 2 ^ j := Nat.one_le_two_pow
  rw [pow_add, Nat.sub_mul, one_mul]
  omega

/-- Settles O31: identities between the exponents. -/
theorem itohTsujiiChain : Obligations.ItohTsujiiChain := by
  intro p a h ha
  refine ⟨fexp_one h ha, fun i j _ _ => ?_, ?_⟩
  · rw [two_pow_add_sub_one, fexp_mul_two_pow_add h]
  · have hM : 2 ^ p.M - 2 = (2 ^ (p.M - 1) - 1) * 2 := by
      have hsucc : p.M = p.M - 1 + 1 := by have := h.degree.1; omega
      rw [hsucc, pow_succ, Nat.add_sub_cancel, Nat.sub_mul]
    rw [finv, hM, fexp_mul_two h]

/-- `fexp` has the value of R18's repeated multiplication (log entry 13). -/
theorem fexp_eq_iterate (h : p.Sized) (a : FieldElem) (e : Nat) : fexp p a e = (fun t => fmul p t a)^[e] 1 := by
  induction e with
  | zero => exact fexp_zero h a
  | succ e ih =>
    rw [Function.iterate_succ_apply', ← ih]
    apply elem_injective h.low (fexp_canonical h a _) (fmul_canonical h.low _ _)
    rw [elem_fmul h, elem_fexp h, elem_fexp h, pow_succ]

end Sys2Proof.Machine
end

section
/-! The commands that multiply (40_field.md R129 to R131, R133): each completes, and its value is what its rule writes
out. -/

namespace Sys2Proof.Machine

variable {p : Params}

theorem getLsbD_toElem (u : Nat) {n : Nat} (hn : n < 240) : (toElem u).getLsbD n = u.testBit n := by
  rw [toElem, BitVec.getLsbD_ofNat, decide_eq_true hn, Bool.true_and]

/-- MULX's value bit by bit (R129): the shift drops the bit at degree M, and the reduction step adds RPOLY_LOW, which
has no bit from M up. -/
theorem getLsbD_fmulx (h : p.LowPartFits) (a : FieldElem) {n : Nat} (hn : n < 240) :
    (fmulx p a).getLsbD n = (decide (n < p.M) &&
      ((decide (0 < n) && a.getLsbD (n - 1)) ^^ (a.getLsbD (p.M - 1) && p.rpolyLow.getLsbD n))) := by
  have hshift : ((a.toNat <<< 1) % 2 ^ p.M).testBit n =
      (decide (n < p.M) && (decide (0 < n) && a.getLsbD (n - 1))) := by
    rw [Nat.testBit_mod_two_pow, Nat.testBit_shiftLeft]
    rfl
  have hlow : p.rpolyLow.toNat.testBit n = (decide (n < p.M) && p.rpolyLow.getLsbD n) := by
    change p.rpolyLow.getLsbD n = _
    cases hb : p.rpolyLow.getLsbD n with
    | false => rw [Bool.and_false]
    | true => rw [decide_eq_true (lt_of_canonical h hb), Bool.and_true]
  have htop : a.toNat.testBit (p.M - 1) = a.getLsbD (p.M - 1) := rfl
  rw [fmulx, htop]
  cases a.getLsbD (p.M - 1) with
  | false => rw [if_neg Bool.false_ne_true, getLsbD_toElem _ hn, hshift, Bool.false_and, Bool.xor_false]
  | true =>
    rw [if_pos rfl, getLsbD_toElem _ hn, Nat.testBit_xor, hshift, hlow, Bool.true_and, Bool.and_xor_distrib_left]

/-- Settles O16: the value is `fmulx`, known bit by bit. -/
theorem mulxCompletes : Obligations.MulxCompletes := fun _ _ _ hb h =>
  ⟨_, completesWriting_of_idle hb rfl, fun _ hn => getLsbD_fmulx h.low _ hn⟩

/-- Settles O17: the value is a remainder, so it has a quotient. -/
theorem mulCompletes : Obligations.MulCompletes := by
  intro s d a b hb h
  refine ⟨fmul s.params s.F[a] s.F[b], completesWriting_of_idle hb rfl, fmul_canonical h.low _ _, ?_⟩
  rw [fmul_toNat h]
  exact exists_clmul_xor_polymod _ _ (rpoly_ne_zero h.low)

/-- Settles O18: SQR's value is that of MUL for equal sources, and the remainder of the spread source. -/
theorem sqrCompletes : Obligations.SqrCompletes := by
  intro s d a hb h
  rw [← fsqr_eq_fmul_self h]
  refine ⟨completesWriting_of_idle hb rfl, fsqr_canonical h.low _, ?_⟩
  rw [fsqr_toNat h]
  exact exists_clmul_xor_polymod _ _ (rpoly_ne_zero h.low)

/-- Settles O20: INV's value is a power by repeated multiplication. -/
theorem invCompletes : Obligations.InvCompletes := by
  intro s d a hb h h0
  have hinv : execCase (.inv d a) s = .write [(d, finv s.params s.F[a])] := if_neg h0
  rw [← fexp_eq_iterate h]
  exact completesWriting_of_idle hb hinv

end Sys2Proof.Machine
end

section
/-! The point commands (41_point.md R180 to R186), and the laws that hold for every pair, on the curve or not (R188). -/

namespace Sys2Proof.Machine

/-! ## Completion -/

theorem completesWritingPoint_of_idle {i : Instr} {s : State} {d : PReg} {q : Point} (hb : s.busy = false)
    (h : execCase i s = .write (pointWrites d q)) : CompletesWritingPoint i s d q := completesWith_of_idle hb h

theorem infinityAnswer_eq_decide (q : Point) : infinityAnswer q = decide (q.1 = 0 ∧ q.2 = 0) := by
  rw [infinityAnswer, Bool.decide_and, beq_eq_decide, beq_eq_decide]

/-- Settles O22: the answer tests both coordinates. -/
theorem pisinfCompletes : Obligations.PisinfCompletes := fun s a hb =>
  completesAnswering_of_idle hb (congrArg Result.setZ (infinityAnswer_eq_decide (s.preg a)))

/-- Settles O23: the value is `pdblf`, which is R171 with the slope named. -/
theorem pdblCompletes : Obligations.PdblCompletes := by
  rintro s d a x y l x3 y3 hb rfl rfl rfl rfl rfl
  exact completesWritingPoint_of_idle hb rfl

/-- Settles O24: the value is `paddf`, which is R172 with the slope and the sum's x coordinate named. -/
theorem paddCompletes : Obligations.PaddCompletes := by
  rintro s d a b x1 y1 x2 y2 l x3 y3 hb rfl rfl rfl rfl rfl rfl rfl
  exact completesWritingPoint_of_idle hb rfl

/-- `ladderLoop` is R173's fold over the bits from the highest to bit 0. -/
theorem ladderLoop_eq_foldl (p : Params) (k : Scalar) (n : Nat) (L : Point × Point) :
    ladderLoop p k n L = (List.range n).reverse.foldl (fun L m => ladderStep p (k.getLsbD m) L) L := by
  induction n generalizing L with
  | zero => rfl
  | succ n ih => rw [List.range_succ, List.reverse_append, ladderLoop, ih]; rfl

/-- Settles O25: the value is the first component of the loop's pair. -/
theorem smulCompletes : Obligations.SmulCompletes := by
  intro s d a hb
  have hfold := congrArg Prod.fst (ladderLoop_eq_foldl s.params s.K 240 (infinity, s.preg a))
  exact completesWritingPoint_of_idle hb (congrArg (fun q => Result.write (pointWrites d q)) hfold)

/-! ## The boundary laws (R188) -/

section Boundary

variable (p : Params) (q : Point)

theorem pdblf_infinity : pdblf p infinity = infinity := if_pos rfl

theorem paddf_infinity_left : paddf p infinity q = q := if_pos ⟨rfl, rfl⟩

theorem eq_infinity_iff {q : Point} : q = infinity ↔ q.1 = 0 ∧ q.2 = 0 := Prod.ext_iff

theorem paddf_infinity_right : paddf p q infinity = q := by
  unfold paddf
  split
  next h => exact (eq_infinity_iff.2 h).symm
  next => exact if_pos ⟨rfl, rfl⟩

/-- A bit 0 above the highest bit 1 of the scalar leaves the ladder's first pair as it is. -/
theorem ladderStep_false_infinity : ladderStep p false (infinity, q) = (infinity, q) :=
  Prod.ext (pdblf_infinity p) (paddf_infinity_left p q)

theorem ladderStep_infinity (b : Bool) : ladderStep p b (infinity, infinity) = (infinity, infinity) := by
  cases b with
  | false => exact ladderStep_false_infinity p infinity
  | true => exact Prod.ext (paddf_infinity_left p infinity) (pdblf_infinity p)

theorem ladderLoop_infinity (k : Scalar) (n : Nat) :
    ladderLoop p k n (infinity, infinity) = (infinity, infinity) := by
  induction n with
  | zero => rfl
  | succ n ih => rw [ladderLoop, ladderStep_infinity, ih]

/-- The ladder passes over the leading bits 0 of the scalar. -/
theorem ladderLoop_leading_zeros {k : Scalar} {m : Nat} (hk : ∀ i, m ≤ i → k.getLsbD i = false) (n : Nat) :
    ladderLoop p k (m + n) (infinity, q) = ladderLoop p k m (infinity, q) := by
  induction n with
  | zero => rfl
  | succ n ih => rw [← Nat.add_assoc, ladderLoop, hk _ (Nat.le_add_right m n), ladderStep_false_infinity, ih]

theorem ladderf_zero : ladderf p 0 q = infinity :=
  congrArg Prod.fst (ladderLoop_leading_zeros p q (k := 0) (m := 0) (fun _ _ => BitVec.getLsbD_zero) 240)

theorem ladderf_one : ladderf p 1 q = q := by
  have hk : ∀ i, 1 ≤ i → (1 : Scalar).getLsbD i = false := fun i hi => by
    rw [BitVec.ofNat_eq_ofNat, BitVec.getLsbD_one, decide_eq_false (show i ≠ 0 by omega), Bool.and_false]
  calc ladderf p 1 q
      = (ladderLoop p 1 1 (infinity, q)).1 := congrArg Prod.fst (ladderLoop_leading_zeros p q hk 239)
    _ = paddf p infinity q := rfl
    _ = q := paddf_infinity_left p q

end Boundary

/-- Settles O34: the laws of R188, one lemma each. -/
theorem pointBoundaryLaws : Obligations.PointBoundaryLaws := fun p q k =>
  ⟨paddf_infinity_right p q, paddf_infinity_left p q, pdblf_infinity p, ladderf_zero p q,
    congrArg Prod.fst (ladderLoop_infinity p k 240), ladderf_one p q⟩

end Sys2Proof.Machine
end

section
/-! The curve `y^2 + xy = x^3 + a x^2 + b` over a field of characteristic 2: the group operations of Mathlib's
Weierstrass curves in the affine formulas of 41_point.md R171 and R172. -/

namespace Sys2Proof.Machine

open WeierstrassCurve.Affine

/-- The Weierstrass curve `y^2 + xy = x^3 + a x^2 + b` (R19). -/
def binaryCurve {R : Type*} [CommRing R] (a b : R) : WeierstrassCurve.Affine R where
  a₁ := 1
  a₂ := a
  a₃ := 0
  a₄ := 0
  a₆ := b

theorem binaryCurve_equation_iff {R : Type*} [CommRing R] (a b x y : R) :
    (binaryCurve a b).Equation x y ↔ y ^ 2 + x * y = x ^ 3 + a * x ^ 2 + b := by
  simp [equation_iff, binaryCurve]

section CharTwo

variable {R : Type*} [CommRing R] [CharP R 2] (a b : R)

/-- In characteristic 2 the discriminant is `b`. -/
theorem binaryCurve_Δ : (binaryCurve a b).Δ = b := by
  simp only [binaryCurve, WeierstrassCurve.Δ, WeierstrassCurve.b₂, WeierstrassCurve.b₄, WeierstrassCurve.b₆,
    WeierstrassCurve.b₈]
  linear_combination -(b + 6 * a * b + 24 * a ^ 2 * b + 32 * a ^ 3 * b + 216 * b ^ 2) * CharTwo.two_eq_zero (R := R)

/-- R11's `CURVE_B != 0` makes every point of the curve nonsingular. -/
theorem binaryCurve_nonsingular {b : R} (hb : b ≠ 0) {x y : R} (h : y ^ 2 + x * y = x ^ 3 + a * x ^ 2 + b) :
    (binaryCurve a b).Nonsingular x y := by
  rw [← equation_iff_nonsingular_of_Δ_ne_zero (by rwa [binaryCurve_Δ]), binaryCurve_equation_iff]
  exact h

theorem binaryCurve_negY (x y : R) : (binaryCurve a b).negY x y = x + y := by
  simp [negY, binaryCurve, CharTwo.sub_eq_add, CharTwo.neg_eq, add_comm]

theorem binaryCurve_addX (x₁ x₂ l : R) : (binaryCurve a b).addX x₁ x₂ l = l ^ 2 + l + x₁ + x₂ + a := by
  simp only [addX, binaryCurve, CharTwo.sub_eq_add]
  ring

theorem binaryCurve_addY (x₁ x₂ y₁ l : R) : (binaryCurve a b).addY x₁ x₂ y₁ l =
    l * (x₁ + (l ^ 2 + l + x₁ + x₂ + a)) + (l ^ 2 + l + x₁ + x₂ + a) + y₁ := by
  rw [addY, binaryCurve_negY, negAddY, binaryCurve_addX, CharTwo.sub_eq_add]
  ring

/-- A tangent is vertical only where `x = 0` (90_conflicts.md C1). -/
theorem binaryCurve_eq_negY_iff (x y : R) : y = (binaryCurve a b).negY x y ↔ x = 0 := by
  rw [binaryCurve_negY, right_eq_add]

end CharTwo

section Slope

variable {K : Type*} [Field K] [CharP K 2] [DecidableEq K] (a b : K)

theorem binaryCurve_slope_of_ne {x₁ x₂ : K} (hx : x₁ ≠ x₂) (y₁ y₂ : K) :
    (binaryCurve a b).slope x₁ x₂ y₁ y₂ = (y₁ + y₂) * (x₁ + x₂)⁻¹ := by
  rw [slope_of_X_ne hx, CharTwo.sub_eq_add, CharTwo.sub_eq_add, div_eq_mul_inv]

theorem binaryCurve_slope_self {x : K} (hx : x ≠ 0) (y : K) :
    (binaryCurve a b).slope x x y y = x + y * x⁻¹ := by
  have h2 : (2 : K) = 0 := CharTwo.two_eq_zero
  have hd : y - (binaryCurve a b).negY x y = x := by
    rw [binaryCurve_negY, CharTwo.sub_eq_add]
    linear_combination y * h2
  rw [slope_of_Y_ne rfl (mt (binaryCurve_eq_negY_iff a b x y).1 hx), hd]
  simp only [binaryCurve]
  field_simp
  linear_combination (x ^ 2 + a * x - y) * h2

end Slope

end Sys2Proof.Machine
end

section
/-! The group law on the curve (41_point.md R174): the block's pairs code the points of a Weierstrass curve over the field
of an irreducible `f`, and the point functions compute its group operations. -/

namespace Sys2Proof.Machine

variable {p : Params}

/-! ## The cases of `paddf` (R172) -/

/-- R172's test for equal operands covers `O + O`. -/
theorem paddf_self (p : Params) (q : Point) : paddf p q q = pdblf p q := by
  by_cases hq : q = infinity
  · rw [hq, paddf_infinity_left, pdblf_infinity]
  · have hq' := mt eq_infinity_iff.2 hq
    rw [paddf, if_neg hq', if_neg hq', if_pos rfl, if_pos rfl]

theorem paddf_of_eq_of_ne {q r : Point} (hq : ¬ (q.1 = 0 ∧ q.2 = 0)) (hr : ¬ (r.1 = 0 ∧ r.2 = 0)) (hx : q.1 = r.1)
    (hy : q.2 ≠ r.2) : paddf p q r = infinity := by
  rw [paddf, if_neg hq, if_neg hr, if_pos hx, if_neg hy]

theorem paddf_of_ne {q r : Point} (hq : ¬ (q.1 = 0 ∧ q.2 = 0)) (hr : ¬ (r.1 = 0 ∧ r.2 = 0)) (hx : q.1 ≠ r.1) :
    paddf p q r = sumFrom p (chord p q r) q r := by
  rw [paddf, if_neg hq, if_neg hr, if_neg hx]

/-! ## The pairs that code points -/

/-- The block's curve over (ZMod 2)[X] / f (R19). -/
noncomputable def weierstrass (p : Params) : WeierstrassCurve.Affine (AdjoinRoot (toPoly p.rpoly)) :=
  binaryCurve (elem p p.curveA) (elem p p.curveB)

/-- The pair `q` codes the point `P`: O codes the identity, a canonical pair the point with its classes as
coordinates. -/
def Codes (p : Params) (q : Point) : (weierstrass p).Point → Prop
  | .zero => q = infinity
  | .some x y _ => p.Canonical q.1 ∧ p.Canonical q.2 ∧ elem p q.1 = x ∧ elem p q.2 = y

theorem elem_curveRhs (h : p.Sized) (x : FieldElem) :
    elem p (curveRhs p x) = elem p x ^ 3 + elem p p.curveA * elem p x ^ 2 + elem p p.curveB := by
  simp only [curveRhs, elem_fadd, elem_fmul h, elem_fsqr h]
  ring

/-- `OnCurve` of R19 is the equation of the curve. -/
theorem onCurve_iff (h : p.Sized) (q : Point) : onCurve p q = true ↔
    elem p q.2 ^ 2 + elem p q.1 * elem p q.2 =
      elem p q.1 ^ 3 + elem p p.curveA * elem p q.1 ^ 2 + elem p p.curveB := by
  have hl : elem p (fadd (fsqr p q.2) (fmul p q.1 q.2)) = elem p q.2 ^ 2 + elem p q.1 * elem p q.2 := by
    rw [elem_fadd, elem_fsqr h, elem_fmul h]
  have hlc := fadd_canonical (fsqr_canonical h.low q.2) (fmul_canonical h.low q.1 q.2)
  have hrc : p.Canonical (curveRhs p q.1) := fadd_canonical
    (fadd_canonical (fmul_canonical h.low (fsqr p q.1) q.1) (fmul_canonical h.low p.curveA (fsqr p q.1))) h.curve.2
  rw [onCurve, beq_iff_eq, ← hl, ← elem_curveRhs h]
  exact ⟨congrArg (elem p), elem_injective h.low hlc hrc⟩

/-- The points of R19 are the pairs that code a point of the Weierstrass curve. -/
theorem onCurveOrO_iff_codes (h : p.Sized) (q : Point) : OnCurveOrO p q ↔ ∃ P, Codes p q P := by
  have := charP_elem h.degree h.low
  constructor
  · rintro (hq | ⟨hx, hy, hc⟩)
    · exact ⟨.zero, hq⟩
    · exact ⟨.some _ _ (binaryCurve_nonsingular _ (elem_ne_zero h.low h.curve.2 h.b) ((onCurve_iff h q).1 hc)),
        hx, hy, rfl, rfl⟩
  · rintro ⟨P, hP⟩
    match P, hP with
    | .zero, hq => exact .inl hq
    | .some _ _ hns, ⟨hx, hy, rfl, rfl⟩ =>
      exact .inr ⟨hx, hy, (onCurve_iff h q).2 ((binaryCurve_equation_iff _ _ _ _).1 hns.left)⟩

/-- A point has one code. -/
theorem Codes.unique (h : p.Sized) {q r : Point} {P : (weierstrass p).Point} (hq : Codes p q P) (hr : Codes p r P) :
    q = r := by
  match P, hq, hr with
  | .zero, hq, hr => exact hq.trans hr.symm
  | .some _ _ _, ⟨hqx, hqy, rfl, rfl⟩, ⟨hrx, hry, hx, hy⟩ =>
    exact Prod.ext (elem_injective h.low hqx hrx hx.symm) (elem_injective h.low hqy hry hy.symm)

/-- `(0, 0)` is not on the curve, because `CURVE_B` is not 0 (R11, R19). -/
theorem Codes.ne_infinity (h : p.Sized) {q : Point} {x y : AdjoinRoot (toPoly p.rpoly)}
    {hP : (weierstrass p).Nonsingular x y} (hq : Codes p q (.some x y hP)) : ¬ (q.1 = 0 ∧ q.2 = 0) := by
  rintro ⟨hx, hy⟩
  obtain ⟨-, -, rfl, rfl⟩ := hq
  have heq := (binaryCurve_equation_iff _ _ _ _).1 hP.left
  have h0 : elem p 0 = 0 := elem_zero p
  rw [hx, hy, h0] at heq
  exact elem_ne_zero h.low h.curve.2 h.b (by linear_combination -heq)

/-- R172's negation is that of the group. -/
theorem Codes.neg (h : p.Sized) {q : Point} {P : (weierstrass p).Point} (hq : Codes p q P) :
    Codes p (pnegf q) (-P) := by
  have := charP_elem h.degree h.low
  match P, hq with
  | .zero, hq =>
    obtain rfl : q = infinity := hq
    rfl
  | .some _ _ hP, ⟨hx, hy, rfl, rfl⟩ =>
    exact ⟨hx, fadd_canonical hx hy, rfl, (elem_fadd p _ _).trans (binaryCurve_negY _ _ _ _).symm⟩

/-! ## The formulas in the field of an irreducible `f` -/

/-- R172's chord sum in the curve's own formulas. -/
theorem elem_sumFrom (h : p.Sized) (l : FieldElem) (q r : Point) :
    elem p (sumFrom p l q r).1 = (weierstrass p).addX (elem p q.1) (elem p r.1) (elem p l) ∧
      elem p (sumFrom p l q r).2 = (weierstrass p).addY (elem p q.1) (elem p r.1) (elem p q.2) (elem p l) := by
  have := charP_elem h.degree h.low
  rw [weierstrass, binaryCurve_addX, binaryCurve_addY]
  simp only [sumFrom, sumX, elem_fadd, elem_fmul h, elem_fsqr h, and_self]

section Field

variable [Fact (Irreducible (toPoly p.rpoly))]

theorem elem_finv_eq_inv (h : p.WellFormed) {a : FieldElem} (ha : p.Canonical a) (h0 : a ≠ 0) :
    elem p (finv p a) = (elem p a)⁻¹ := by
  apply eq_inv_of_mul_eq_one_right
  rw [elem_finv h.toSized]
  exact mul_pow_eq_one h (elem_ne_zero h.low ha h0)

theorem elem_tangent (h : p.WellFormed) {x : FieldElem} (hx : p.Canonical x) (h0 : x ≠ 0) (y : FieldElem) :
    elem p (tangent p x y) = elem p x + elem p y * (elem p x)⁻¹ := by
  rw [tangent, elem_fadd, elem_fmul h.toSized, elem_finv_eq_inv h hx h0]

theorem elem_chord (h : p.WellFormed) {q r : Point} (hq : p.Canonical q.1) (hr : p.Canonical r.1) (hne : q.1 ≠ r.1) :
    elem p (chord p q r) = (elem p q.2 + elem p r.2) * (elem p q.1 + elem p r.1)⁻¹ := by
  have h0 : fadd q.1 r.1 ≠ 0 := fun h0 => hne (BitVec.xor_eq_zero_iff.1 h0)
  rw [chord, elem_fmul h.toSized, elem_fadd, elem_finv_eq_inv h (fadd_canonical hq hr) h0, elem_fadd]

/-- R171's double in the curve's own formulas: with `l = x + y/x`, `x^2 + (l + 1) x3 = l (x + x3) + x3 + y`. -/
theorem elem_pdblf (h : p.WellFormed) {q : Point} (hx : p.Canonical q.1) (h0 : q.1 ≠ 0) :
    elem p (pdblf p q).1 = (weierstrass p).addX (elem p q.1) (elem p q.1) (elem p (tangent p q.1 q.2)) ∧
      elem p (pdblf p q).2 =
        (weierstrass p).addY (elem p q.1) (elem p q.1) (elem p q.2) (elem p (tangent p q.1 q.2)) := by
  have := charP_elem h.degree h.low
  have h2 : (2 : AdjoinRoot (toPoly p.rpoly)) = 0 := CharTwo.two_eq_zero
  have hlx : elem p (tangent p q.1 q.2) * elem p q.1 = elem p q.1 ^ 2 + elem p q.2 := by
    have hne := elem_ne_zero h.low hx h0
    rw [elem_tangent h hx h0]
    field_simp
  rw [pdblf, if_neg h0, weierstrass, binaryCurve_addX, binaryCurve_addY]
  simp only [doubleFrom, elem_fadd, elem_fmul h.toSized, elem_fsqr h.toSized, elem_one h.toSized]
  generalize elem p (tangent p q.1 q.2) = l at hlx ⊢
  generalize elem p q.1 = x at hlx ⊢
  generalize elem p q.2 = y at hlx ⊢
  constructor
  · linear_combination -x * h2
  · linear_combination -hlx - (x * l + y + x) * h2

/-! ## The point functions -/

variable [DecidableEq (AdjoinRoot (toPoly p.rpoly))]

open WeierstrassCurve.Affine in
/-- `pdblf` doubles (R171). -/
theorem Codes.double (h : p.WellFormed) {q : Point} {P : (weierstrass p).Point} (hq : Codes p q P) :
    Codes p (pdblf p q) (P + P) := by
  have := charP_elem h.degree h.low
  match P, hq with
  | .zero, hq =>
    obtain rfl : q = infinity := hq
    exact pdblf_infinity p
  | .some _ _ hP, ⟨hx, hy, rfl, rfl⟩ =>
    have hvert : elem p q.2 = (weierstrass p).negY (elem p q.1) (elem p q.2) ↔ elem p q.1 = 0 :=
      binaryCurve_eq_negY_iff _ _ _ _
    by_cases h0 : q.1 = 0
    · rw [Point.add_self_of_Y_eq (hvert.2 (by rw [h0]; exact elem_zero p))]
      exact if_pos h0
    · have hne := elem_ne_zero h.low hx h0
      have hslope : (weierstrass p).slope (elem p q.1) (elem p q.1) (elem p q.2) (elem p q.2) =
          elem p (tangent p q.1 q.2) := (binaryCurve_slope_self _ _ hne _).trans (elem_tangent h hx h0 _).symm
      have hc := pdblf_canonical h.toSized hx
      have he := elem_pdblf h hx h0
      rw [Point.add_self_of_Y_ne (mt hvert.1 hne)]
      exact ⟨hc.1, hc.2, hslope ▸ he.1, hslope ▸ he.2⟩

open WeierstrassCurve.Affine in
/-- `paddf` adds (R172). -/
theorem Codes.add (h : p.WellFormed) {q r : Point} {P Q : (weierstrass p).Point} (hq : Codes p q P)
    (hr : Codes p r Q) : Codes p (paddf p q r) (P + Q) := by
  have := charP_elem h.degree h.low
  match P, Q, hq, hr with
  | .zero, Q, hq, hr =>
    obtain rfl : q = infinity := hq
    rw [paddf_infinity_left]
    exact (zero_add Q).symm ▸ hr
  | P, .zero, hq, hr =>
    obtain rfl : r = infinity := hr
    rw [paddf_infinity_right]
    exact (add_zero P).symm ▸ hq
  | .some _ _ hP, .some _ _ hQ, ⟨hqx, hqy, rfl, rfl⟩, ⟨hrx, hry, rfl, rfl⟩ =>
    have hq0 := Codes.ne_infinity h.toSized (hP := hP) ⟨hqx, hqy, rfl, rfl⟩
    have hr0 := Codes.ne_infinity h.toSized (hP := hQ) ⟨hrx, hry, rfl, rfl⟩
    by_cases hx : q.1 = r.1
    · by_cases hy : q.2 = r.2
      · obtain rfl : q = r := Prod.ext hx hy
        rw [paddf_self]
        exact Codes.double h ⟨hqx, hqy, rfl, rfl⟩
      · have hx' := congrArg (elem p) hx
        have hy' := mt (elem_injective h.low hqy hry) hy
        rw [paddf_of_eq_of_ne hq0 hr0 hx hy,
          Point.add_of_Y_eq hx' ((Y_eq_of_X_eq hP.left hQ.left hx').resolve_left hy')]
        rfl
    · have hne := mt (elem_injective h.low hqx hrx) hx
      have hslope : (weierstrass p).slope (elem p q.1) (elem p r.1) (elem p q.2) (elem p r.2) =
          elem p (chord p q r) := (binaryCurve_slope_of_ne _ _ hne _ _).trans (elem_chord h hqx hrx hx).symm
      have hc := paddf_canonical h.toSized ⟨hqx, hqy⟩ ⟨hrx, hry⟩
      have he := elem_sumFrom h.toSized (chord p q r) q r
      rw [paddf_of_ne hq0 hr0 hx] at hc ⊢
      rw [Point.add_of_X_ne hne]
      exact ⟨hc.1, hc.2, hslope ▸ he.1, hslope ▸ he.2⟩

end Field

/-- Settles O35: the pairs of the curve code the points of an abelian group. -/
theorem pointAdditionIsAGroupLaw : Obligations.PointAdditionIsAGroupLaw := by
  intro p q1 q2 q3 h h1 h2 h3
  classical
  have := Fact.mk (irreducible_toPoly_rpoly h.degree h.low h.irreducible)
  have hs := h.toSized
  obtain ⟨P1, h1⟩ := (onCurveOrO_iff_codes hs q1).1 h1
  obtain ⟨P2, h2⟩ := (onCurveOrO_iff_codes hs q2).1 h2
  obtain ⟨P3, h3⟩ := (onCurveOrO_iff_codes hs q3).1 h3
  have hcomm := (h2.add h h1).unique hs (add_comm P1 P2 ▸ h1.add h h2)
  have hassoc := ((h1.add h h2).add h h3).unique hs (add_assoc P1 P2 P3 ▸ h1.add h (h2.add h h3))
  have hneg : Codes p (paddf p q1 (pnegf q1)) 0 := add_neg_cancel P1 ▸ h1.add h (h1.neg hs)
  exact ⟨(onCurveOrO_iff_codes hs _).2 ⟨_, h1.add h h2⟩, (onCurveOrO_iff_codes hs _).2 ⟨_, h1.double h⟩,
    (onCurveOrO_iff_codes hs _).2 ⟨_, h1.neg hs⟩, (paddf_self p q1).symm, hcomm.symm, hassoc, hneg⟩

/-! ## The ladder (R173) -/

section Ladder

variable [Fact (Irreducible (toPoly p.rpoly))] [DecidableEq (AdjoinRoot (toPoly p.rpoly))]

/-- The ladder's pair codes `m P` and `(m + 1) P`; a step doubles `m` and adds the bit. -/
theorem ladderStep_codes (h : p.WellFormed) {P : (weierstrass p).Point} {L : Point × Point} {m : Nat}
    (h1 : Codes p L.1 (m • P)) (h2 : Codes p L.2 ((m + 1) • P)) (bit : Bool) :
    Codes p (ladderStep p bit L).1 ((2 * m + bit.toNat) • P) ∧
      Codes p (ladderStep p bit L).2 ((2 * m + bit.toNat + 1) • P) := by
  have hsum : (2 * m + 1) • P = m • P + (m + 1) • P := by rw [← add_nsmul]; congr 1; omega
  cases bit with
  | false =>
    have hdbl : (2 * m) • P = m • P + m • P := by rw [two_mul, add_nsmul]
    exact ⟨hdbl ▸ h1.double h, hsum ▸ h1.add h h2⟩
  | true =>
    have hdbl : (2 * m + 1 + 1) • P = (m + 1) • P + (m + 1) • P := by rw [← add_nsmul]; congr 1; omega
    exact ⟨hsum ▸ h1.add h h2, hdbl ▸ h2.double h⟩

/-- Before the bits below `n`, the pair stands at the scalar's part above them; after them, at the scalar. -/
theorem ladderLoop_codes (h : p.WellFormed) (k : Scalar) {P : (weierstrass p).Point} (n : Nat) (L : Point × Point)
    (h1 : Codes p L.1 ((k.toNat / 2 ^ n) • P)) (h2 : Codes p L.2 ((k.toNat / 2 ^ n + 1) • P)) :
    Codes p (ladderLoop p k n L).1 (k.toNat • P) := by
  induction n generalizing L with
  | zero => rwa [pow_zero, Nat.div_one] at h1
  | succ n ih =>
    have hbit : (k.getLsbD n).toNat = k.toNat / 2 ^ n % 2 := Nat.toNat_testBit k.toNat n
    have hk : 2 * (k.toNat / 2 ^ (n + 1)) + (k.getLsbD n).toNat = k.toNat / 2 ^ n := by
      rw [hbit, pow_succ, ← Nat.div_div_eq_div_mul]
      omega
    have hstep := ladderStep_codes h h1 h2 (k.getLsbD n)
    rw [hk] at hstep
    exact ih _ hstep.1 hstep.2

theorem ladderf_codes (h : p.WellFormed) (k : Scalar) {q : Point} {P : (weierstrass p).Point} (hq : Codes p q P) :
    Codes p (ladderf p k q) (k.toNat • P) := by
  have hk : k.toNat / 2 ^ 240 = 0 := Nat.div_eq_of_lt k.isLt
  apply ladderLoop_codes h k 240 (infinity, q)
  · rw [hk, zero_nsmul]
    rfl
  · rwa [hk, zero_add, one_nsmul]

theorem iterate_paddf_codes (h : p.WellFormed) {q : Point} {P : (weierstrass p).Point} (hq : Codes p q P) (n : Nat) :
    Codes p ((fun r => paddf p r q)^[n] infinity) (n • P) := by
  induction n with
  | zero =>
    rw [zero_nsmul]
    rfl
  | succ n ih =>
    rw [Function.iterate_succ_apply', succ_nsmul]
    exact ih.add h hq

end Ladder

/-- Settles O36: both sides code `k P`. -/
theorem ladderIsRepeatedAddition : Obligations.LadderIsRepeatedAddition := by
  intro p k q h hq
  classical
  have := Fact.mk (irreducible_toPoly_rpoly h.degree h.low h.irreducible)
  obtain ⟨P, hP⟩ := (onCurveOrO_iff_codes h.toSized q).1 hq
  exact (ladderf_codes h k hP).unique h.toSized (iterate_paddf_codes h hP k.toNat)

end Sys2Proof.Machine
end

section
/-! Bounded liveness (70_reset_and_hazards.md R255): a command in flight completes. Every step that does not complete it
uses up one entry of the schedule, and at the schedule's end the engine takes its step. -/

namespace Sys2Proof.Machine

/-! ## When a step is refused -/

theorem memRead_ne_refused (off : Nat) (s : State) (r : Refusal) : memRead off s ≠ .refused r := by
  unfold memRead
  split <;> simp

theorem issueCommand_ne_refused (v : Word) (s : State) (r : Refusal) : issueCommand v s ≠ .refused r := by
  unfold issueCommand
  split
  · rw [exec_eq_accept, accept]
    split <;> simp
  · simp [rejectWord_eq]

theorem memWrite_ne_refused (off : Nat) (v : Word) (s : State) (r : Refusal) : memWrite off v s ≠ .refused r := by
  unfold memWrite
  split <;> simp [issueCommand_ne_refused]

theorem engineStep_ne_refused (s : State) (r : Refusal) : engineStep s ≠ .refused r := by
  cases hb : s.busy with
  | false => simp [engineStep_idle hb]
  | true =>
    rw [engineStep_busy hb, complete]
    split <;> simp

theorem driveReset_ne_refused (b : Bool) (s : State) (r : Refusal) : driveReset b s ≠ .refused r := by
  unfold driveReset
  split <;> simp

section Progress

variable {s t : State} {e : Event}

/-- Only the port refuses, and it refuses nothing that it can carry while the reset input is released (R62, R240). -/
theorem takeEvent_ne_refused (hr : s.rst = false) (he : e.OnPort) (r : Refusal) : takeEvent e s ≠ .refused r := by
  cases e with
  | read z off =>
    obtain ⟨hz, ha, ho⟩ := he
    rw [takeEvent, hostAccess_ok hr hz ho ha]
    exact memRead_ne_refused off s r
  | write z off v =>
    obtain ⟨hz, ha, ho⟩ := he
    rw [takeEvent, hostAccess_ok hr hz ho ha]
    exact memWrite_ne_refused off v s r
  | engine => exact engineStep_ne_refused s r
  | rst b => exact driveReset_ne_refused b s r

theorem step_ne_refused (hr : s.rst = false) (hp : ∀ e ∈ s.inputs, e.OnPort) (r : Refusal) : step s ≠ .refused r := by
  cases hi : s.inputs with
  | nil => exact step_nil hi ▸ engineStep_ne_refused s r
  | cons e es =>
    have he : e.OnPort := hp e (by simp [hi])
    exact step_cons hi ▸ takeEvent_ne_refused (s := s.schedule es) hr he r

/-- A command in flight shows that the reset input is released (R240). -/
theorem State.Inv.released_of_busy (h : s.Inv) (hb : s.busy = true) : s.rst = false :=
  Bool.eq_false_iff.2 fun hr => absurd (hb.symm.trans (h.idle_of_rst hr)) (by decide)

theorem State.Inv.step_has_next (hs : s.Inv) (hr : s.rst = false) (hp : ∀ e ∈ s.inputs, e.OnPort) :
    ∃ t, step s = .next t := by
  cases h : step s with
  | next t => exact ⟨t, rfl⟩
  | fault r => exact absurd h (hs.step_ne_fault r)
  | refused r => exact absurd h (step_ne_refused hr hp r)

/-! ## What a step does to the schedule and to the command in flight -/

/-- Taking an entry leaves the rest of the schedule as it is. -/
theorem EventCase.inputs_eq (h : EventCase s t e) : t.inputs = s.inputs := by
  cases h with
  | write _ _ _ _ _ hw => cases hw <;> simp [*]
  | _ => simp [*]

/-- The engine's step leaves no command in flight (R121). -/
theorem EventCase.idle_of_engine (h : EventCase s t .engine) : t.busy = false := by
  cases h with
  | passed hb ht => exact ht ▸ hb
  | completed c _ _ ht => rw [ht]; rfl

/-- A step that leaves a command in flight has taken an entry of the schedule. -/
theorem step_inputs_of_busy (h : step s = .next t) (hb : t.busy = true) : ∃ e, s.inputs = e :: t.inputs := by
  rcases step_next h with ⟨_, hc⟩ | ⟨e, es, hi, hc⟩
  · exact absurd (hb.symm.trans hc.idle_of_engine) (by decide)
  · exact ⟨e, by rw [hi, hc.inputs_eq, schedule_inputs]⟩

/-- Where no reset is next, a step that ends a command in flight completes it (R41, R42). -/
theorem step_done_of_busy_falls (h : step s = .next t) (hs : s.busy = true) (ht : t.busy = false)
    (hn : ∀ e ∈ s.inputs, ∀ b, e ≠ .rst b) : t.done = true := by
  obtain ⟨_, hfalls, _⟩ := busyAndDoneTransitions s t h
  rcases hfalls hs ht with ⟨_, hd, _⟩ | ⟨es, hi⟩
  · exact hd
  · exact absurd rfl (hn (.rst true) (by simp [hi]) true)

/-- Every step completes the command or uses up an entry, so any bound above the schedule's length will do. -/
theorem State.Inv.completes_within {n : Nat} (hn : s.inputs.length < n) (hs : s.Inv) (hb : s.busy = true)
    (hsched : ∀ e ∈ s.inputs, e.OnPort ∧ ∀ b, e ≠ .rst b) :
    ∃ k t, k ≤ n ∧ Sys2Proof.core.run k s = .next t ∧ t.busy = false ∧ t.done = true := by
  induction n generalizing s with
  | zero => exact absurd hn (Nat.not_lt_zero _)
  | succ n ih =>
    obtain ⟨t, ht⟩ := hs.step_has_next (hs.released_of_busy hb) fun e he => (hsched e he).1
    cases htb : t.busy with
    | false =>
      have hdone : t.done = true := step_done_of_busy_falls ht hb htb fun e he => (hsched e he).2
      exact ⟨1, t, by omega, core_run_next 0 ht, htb, hdone⟩
    | true =>
      obtain ⟨e, hi⟩ := step_inputs_of_busy ht htb
      rw [hi] at hn hsched
      obtain ⟨k, u, hk, hrun, hu⟩ := ih (Nat.lt_of_succ_lt_succ hn) (stepKeepsInvariant s t hs ht).1 htb
        fun e' he' => hsched e' (List.mem_cons_of_mem e he')
      exact ⟨k + 1, u, Nat.succ_le_succ hk, (core_run_next k ht).trans hrun, hu⟩

end Progress

/-- Settles O48: the schedule's length is one below the bound. -/
theorem commandEventuallyCompletes : Obligations.CommandEventuallyCompletes :=
  fun _ hs hb _ hsched => hs.completes_within (Nat.lt_succ_self _) hb hsched

end Sys2Proof.Machine
end
